-- ==== Sys2Proof/Word.lean ====
section
/-! DEFINITION. The value widths of the core (00_scope.md R7, R8): every value is an unsigned bit vector, bit 0 the least significant. -/

namespace Sys2Proof

/-- 8 bits: PWM duty, perceptual brightness, colour temperature, channel field (R7, R58). -/
abbrev Byte := BitVec 8

/-- 16 bits: linear dimming value, analog level, ceilings, thresholds, table entries (R7). -/
abbrev Word := BitVec 16

/-- 32 bits: one command word (R55). -/
abbrev CommandWord := BitVec 32

end Sys2Proof
end

