-- ==== Sys2Proof/Config.lean ====
section
/-! DEFINITION. The parameters the spec leaves open (00_scope.md R7): the two read-only tables and the emission order, with
exactly what the spec lets a model assume of them, as ONE opaque constant (log entries 6 and 7); and the free values that the output side
and the result register hold from reset to their first write (log entry 4). -/

namespace Sys2Proof.Config

/-- `EMIT_ORDER` (R124): which channel a two-channel command emits first. -/
inductive EmitOrder where
  | ch1First
  | ch2First
  deriving DecidableEq, Repr, Inhabited

/-- The parameters of R7 and what may be assumed of them: `GAMMA` non-decreasing and nothing else (R28, R92), `LIN_X` strictly
increasing (R29, R75), `LIN_Y[6] = 61250` and nothing else of `LIN_Y` (R29). The values after `:=` only show Lean that some
admitted parameters exist; `Config.params` below has no value that a proof can see (DESIGN CHOICE, log entries 6 and 7). -/
structure Params where
  gamma : Byte → Word := fun _ => 0
  gamma_nondecreasing : ∀ i : Nat, i < 255 → gamma (BitVec.ofNat 8 i) ≤ gamma (BitVec.ofNat 8 (i + 1)) := by
    intros; exact BitVec.le_refl _
  linX : Fin 7 → Word := fun k => BitVec.ofNat 16 k
  linX_increasing : ∀ k : Fin 6, linX k.castSucc < linX k.succ := by decide
  linY : Fin 7 → Word := fun _ => 61250#16
  linY_last : linY 6 = 61250#16 := by decide
  emitOrder : EmitOrder := .ch1First
  deriving Inhabited

/-- The core's parameters: OPEN in the spec (92_eei_decisions.md D10, D11, D12, D16), so a constant with no body. What is proved
of it holds for every admitted choice of the tables and of the order. -/
opaque params : Params

/-- The duty that the latch of channel number `c` holds until the first emission on it: a free value (DESIGN CHOICE, log entry 4). -/
opaque resetPwm (c : Byte) : Byte

/-- The analog level beside it: a free value (DESIGN CHOICE, log entry 4). -/
opaque resetAlevel (c : Byte) : Word

/-- What `RAIL_ON` holds until the first `SET_POWER`: a free value (DESIGN CHOICE, log entry 4). -/
opaque resetRailOn : Bool

/-- What `RESULT` holds until the first query command: a free value (DESIGN CHOICE, log entry 4). -/
opaque resetResult : Word

end Sys2Proof.Config
end

