-- ==== Sys2Proof/Machine/State.lean ====
section
/-! DEFINITION. The machine's state, all the spec gives it (10_state.md R34), its reset value (70_reset_and_hazards.md R161), and the
reasons for which a step is refused (00_scope.md R11, 60_exceptions.md R142). -/

namespace Sys2Proof.Machine

/-- The two channels (00_scope.md R7, `N_CH = 2`). -/
inductive Channel where
  | ch1
  | ch2
  deriving DecidableEq, Repr

/-- The configuration registers (10_state.md R23–R27). -/
structure Cfg where
  /-- `ANALOG_MIN` (R23). -/
  analogMin : Word
  /-- `PWM_MIN` (R24). -/
  pwmMin : Byte
  /-- `CURRENT[0]`, the ceiling of channel 1 (R25). -/
  current0 : Word
  /-- `CURRENT[1]`, the ceiling of channel 2 (R25). -/
  current1 : Word
  deriving DecidableEq, Repr

/-- What an output latch holds: `(PWM, ALEVEL)` (10_state.md R31). -/
structure OutPair where
  pwm : Byte
  alevel : Word
  deriving DecidableEq, Repr

/-- One event of the emission log (10_state.md R32). -/
inductive Event where
  /-- `Emit(c, p, a)`. -/
  | emit (c : Channel) (p : Byte) (a : Word)
  /-- `Rail(b)`. -/
  | rail (b : Bool)
  deriving DecidableEq, Repr

/-- A register that R34 writes as an `Option`: the value it holds, and whether anything has written it since reset. R34's "none = no
value" is `written = false`; the register then holds a free value (DESIGN CHOICE, log entry 4). -/
structure Held (α : Type) where
  value : α
  written : Bool
  deriving DecidableEq, Repr

/-- The state of R34, field by field, and the words the host issues. -/
structure State where
  /-- `CFG`. -/
  cfg : Cfg
  /-- `OUT[1]` (R31). -/
  out1 : Held OutPair
  /-- `OUT[2]` (R31). -/
  out2 : Held OutPair
  /-- `RAIL_ON`, `true` = 1 = energised (R30). -/
  railOn : Held Bool
  /-- `RESULT` (R33). -/
  result : Held Word
  /-- `EVENTS`, oldest first (R32). -/
  events : List Event
  /-- `POS`, commands executed so far (R34). -/
  pos : Nat
  /-- `REFUSED` (R11, R34). -/
  refused : Bool
  /-- The command words the host issues from here on, first word next: the model's own field (DESIGN CHOICE, log entry 2). -/
  input : List CommandWord
  deriving DecidableEq, Repr

/-- The state after reset (R161): nothing has written the output side or `RESULT`, which hold free values (log entry 4); the host has
issued nothing yet (log entry 2). -/
def State.reset : State where
  cfg := ⟨1966#16, 5#8, 32768#16, 32768#16⟩
  out1 := ⟨⟨Config.resetPwm 1, Config.resetAlevel 1⟩, false⟩
  out2 := ⟨⟨Config.resetPwm 2, Config.resetAlevel 2⟩, false⟩
  railOn := ⟨Config.resetRailOn, false⟩
  result := ⟨Config.resetResult, false⟩
  events := []
  pos := 0
  refused := false
  input := []

/-- Why a step faults: for no reason. The core raises no exception (R140), and no command reads a place that nothing has written (R34), so
there is no constructor, nothing raises a fault, and that is safe. -/
inductive Fault where
  deriving DecidableEq, Repr

/-- Why a step is refused (R11). The two refusals of a word carry the state the refusal leaves, `REFUSED` set and no architectural state
changed (R61, R62; DESIGN CHOICE, log entry 5). -/
inductive Refusal where
  /-- The instruction has no meaning yet. Raised by `exec` only; no arm raises it now. Safe. -/
  | notModelled (mnemonic : String)
  /-- `refuse ReservedOpcode` (R61). Raised by `step` on a reserved opcode. Safe: the word is no command. -/
  | reservedOpcode (op : Byte) (after : State)
  /-- `refuse NonzeroReservedField` (R62). Raised by `step` on a must-be-zero bit that is 1. Safe: the word is no command. -/
  | nonzeroReservedField (w : CommandWord) (after : State)
  /-- `refuse IllFormedTable` (R84). Raised by the generic contract `interpolate` on a table that is not admitted; no step raises it,
  since the core's own table is admitted (log entry 8). Safe. -/
  | illFormedTable
  deriving DecidableEq, Repr

end Sys2Proof.Machine
end

