-- ==== Sys2Proof/Machine/Interpolator.lean ====
section
/-! DEFINITION. The Curve Interpolator (40_interpolator.md R75–R86): the generic function on an admitted table, the contract that
refuses any other table (R84), and its use on the Current Linearity Curve (R85). -/

namespace Sys2Proof.Machine

/-- One breakpoint `(x, y)` of a table (R75). -/
structure Breakpoint where
  x : Word
  y : Word
  deriving DecidableEq, Repr

/-- An admitted table (R75): at least 2 points, `x` strictly increasing; the `y` are free. -/
structure Curve where
  /-- The breakpoint of index 0. -/
  first : Breakpoint
  /-- The breakpoints of index 1 to n-1. -/
  others : List Breakpoint
  twoPoints : others ≠ []
  increasing : (first :: others).Pairwise fun p q => p.x < q.x

/-- The breakpoints in the order of their indexes. -/
def Curve.points (c : Curve) : List Breakpoint := c.first :: c.others

/-- The breakpoint of index n-1. -/
def Curve.last (c : Curve) : Breakpoint := c.others.getLast c.twoPoints

/-- `delta` of R80: the slope in 1/255 units, truncated, applied to the distance from `lo`, truncated. -/
def segmentDelta (lo hi : Breakpoint) (x : Word) : Nat :=
  let dx := hi.x.toNat - lo.x.toNat
  let r := x.toNat - lo.x.toNat
  let dy := ((hi.y.toNat : Int) - (lo.y.toNat : Int)).natAbs
  dy * 255 / dx * r / 255

/-- The slope method inside one segment (R80). -/
def segmentValue (lo hi : Breakpoint) (x : Word) : Word :=
  if lo.y ≤ hi.y then BitVec.ofNat 16 (lo.y.toNat + segmentDelta lo hi x)
  else BitVec.ofNat 16 (lo.y.toNat - segmentDelta lo hi x)

/-- The forward scan from the breakpoint `lo` (R78 to R80). The list runs out only at or after the last breakpoint, which `interp`
has dealt with before ("scanning past the last index, return the last y value", R76; DESIGN CHOICE, log entry 19). -/
def scanFrom (lo : Breakpoint) (rest : List Breakpoint) (x : Word) : Word :=
  match rest with
  | [] => lo.y
  | hi :: more =>
    if hi.x < x then scanFrom hi more x
    else if x = hi.x then hi.y
    else segmentValue lo hi x

/-- `Interp` on an admitted table (R81). -/
def interp (c : Curve) (x : Word) : Word :=
  if c.last.x ≤ x then c.last.y
  else if x ≤ c.first.x then c.first.y
  else scanFrom c.first c.others x

/-- The test of R75 on any list of breakpoints, as the curve it gives. -/
def curveOf : List Breakpoint → Option Curve
  | [] => none
  | [_] => none
  | p :: q :: more =>
    if h : (p :: q :: more).Pairwise fun a b => a.x < b.x then some ⟨p, q :: more, by simp, h⟩ else none

/-- The document's contract `interpolate(xs, ys, n, x)`: a table that is not admitted is refused (R84). -/
def interpolate (table : List Breakpoint) (x : Word) : Except Refusal Word :=
  match curveOf table with
  | some c => .ok (interp c x)
  | none => .error .illFormedTable

/-- Breakpoint `k` of the Current Linearity Curve (R29). -/
def linPoint (P : Config.Params) (k : Fin 7) : Breakpoint := ⟨P.linX k, P.linY k⟩

/-- The seven breakpoints of the Current Linearity Curve have strictly increasing `x` (R29). -/
theorem linPoint_increasing (P : Config.Params) {j k : Fin 7} (h : j < k) : (linPoint P j).x < (linPoint P k).x :=
  have strict : StrictMono fun i => (P.linX i).toNat := Fin.strictMono_iff_lt_succ.mpr P.linX_increasing
  strict h

/-- The Current Linearity Curve `(LIN_X, LIN_Y)`, n = 7 (R29, R85). -/
def linCurve (P : Config.Params) : Curve where
  first := linPoint P 0
  others := [linPoint P 1, linPoint P 2, linPoint P 3, linPoint P 4, linPoint P 5, linPoint P 6]
  twoPoints := by simp
  increasing := by
    simp only [List.pairwise_cons, List.mem_cons, List.not_mem_nil, or_false, forall_eq_or_imp, forall_eq, List.Pairwise.nil, and_true]
    refine ⟨⟨?_, ?_, ?_, ?_, ?_, ?_⟩, ⟨?_, ?_, ?_, ?_, ?_⟩, ⟨?_, ?_, ?_, ?_⟩, ⟨?_, ?_, ?_⟩, ⟨?_, ?_⟩, ?_, ?_⟩ <;>
      first | exact linPoint_increasing P (by decide) | simp

/-- `LinCorr(a)` (R85). -/
def linCorr (P : Config.Params) (a : Word) : Word := interp (linCurve P) a

end Sys2Proof.Machine
end

