-- ==== Sys2Proof/Machine/Operands.lean ====
section
/-! DEFINITION. The operand form that needs a reading: the 8-bit channel operand (00_scope.md R12, 30_encoding.md R63); every other
operand is an unsigned field taken as it stands (R58). And the order in which a two-channel command visits the channels (R124). -/

namespace Sys2Proof.Machine

/-- The channel a channel operand names: 1 or 2, and no other number (R12, R63, R98). -/
def channelOf (c : Byte) : Option Channel :=
  if c = 1#8 then some .ch1 else if c = 2#8 then some .ch2 else none

/-- The number of a channel (R7: "numbered 1 and 2"). -/
def Channel.number : Channel → Byte
  | .ch1 => 1#8
  | .ch2 => 2#8

/-- `Order(EMIT_ORDER)` (R115): `[1, 2]` or `[2, 1]`. -/
def emissionOrder : Config.EmitOrder → List Channel
  | .ch1First => [.ch1, .ch2]
  | .ch2First => [.ch2, .ch1]

end Sys2Proof.Machine
end

