-- ==== Sys2Proof/Syntax.lean ====
section
/-! DEFINITION. The commands of the core: one constructor per row of the opcode table (30_encoding.md R59), operands as the
unsigned fields of R58. A channel operand stays the whole 8-bit field, since every value of it is a legal operand (R63). -/

namespace Sys2Proof

/-- One command of the core (R59). -/
inductive Instr where
  /-- `SET_CHANNEL c, v` (R97). -/
  | setChannel (c : Byte) (v : Word)
  /-- `SET_BRIGHTNESS v` (R115). -/
  | setBrightness (v : Byte)
  /-- `SET_BRIGHTNESS_CH c, v` (R116). -/
  | setBrightnessCh (c : Byte) (v : Byte)
  /-- `SET_TUNABLE b, t` (R117). -/
  | setTunable (b : Byte) (t : Byte)
  /-- `SET_CURRENT v` (R119). -/
  | setCurrent (v : Word)
  /-- `SET_CURRENT_CH c, v` (R120). -/
  | setCurrentCh (c : Byte) (v : Word)
  /-- `SET_POWER s` (R121); `true` is `s = 1`. -/
  | setPower (s : Bool)
  /-- `SET_ANALOG_MIN v` (R122). -/
  | setAnalogMin (v : Word)
  /-- `SET_PWM_MIN v` (R123). -/
  | setPwmMin (v : Byte)
  /-- `GET_LINEAR v` (R91). -/
  | getLinear (v : Byte)
  /-- `INTERP_LIN x` (R87). -/
  | interpLin (x : Word)
  deriving DecidableEq, Repr

end Sys2Proof
end

