-- ==== Sys2Proof/WellFormed.lean ====
section
/-! DEFINITION. The opcode table as data (30_encoding.md R57, R59) and the checks of well-formedness: of a command written with
plain numbers for operands (R58, R65: each operand fits its field), of an instruction, and of a command word (R59: it matches a row). -/

namespace Sys2Proof

/-- The eleven mnemonics of R59. -/
inductive Mnemonic where
  | setChannel
  | setBrightness
  | setBrightnessCh
  | setTunable
  | setCurrent
  | setCurrentCh
  | setPower
  | setAnalogMin
  | setPwmMin
  | getLinear
  | interpLin
  deriving DecidableEq, Repr

/-- The six formats of R57. -/
inductive Format where
  | cv
  | cb
  | v16
  | v8
  | bc
  | p
  deriving DecidableEq, Repr

/-- The rows of R59 in the table's order. -/
def Mnemonic.all : List Mnemonic :=
  [.setChannel, .setBrightness, .setBrightnessCh, .setTunable, .setCurrent, .setCurrentCh, .setPower, .setAnalogMin,
    .setPwmMin, .getLinear, .interpLin]

/-- The column "Mnemonic" of R59. -/
def Mnemonic.name : Mnemonic → String
  | .setChannel => "SET_CHANNEL"
  | .setBrightness => "SET_BRIGHTNESS"
  | .setBrightnessCh => "SET_BRIGHTNESS_CH"
  | .setTunable => "SET_TUNABLE"
  | .setCurrent => "SET_CURRENT"
  | .setCurrentCh => "SET_CURRENT_CH"
  | .setPower => "SET_POWER"
  | .setAnalogMin => "SET_ANALOG_MIN"
  | .setPwmMin => "SET_PWM_MIN"
  | .getLinear => "GET_LINEAR"
  | .interpLin => "INTERP_LIN"

/-- The column "Format" of R59. -/
def Mnemonic.format : Mnemonic → Format
  | .setChannel => .cv
  | .setBrightness => .v8
  | .setBrightnessCh => .cb
  | .setTunable => .bc
  | .setCurrent => .v16
  | .setCurrentCh => .cv
  | .setPower => .p
  | .setAnalogMin => .v16
  | .setPwmMin => .v8
  | .getLinear => .v8
  | .interpLin => .v16

/-- The column "OP" of R59. -/
def Mnemonic.opcode : Mnemonic → Byte
  | .setChannel => 0x01#8
  | .setBrightness => 0x02#8
  | .setBrightnessCh => 0x03#8
  | .setTunable => 0x04#8
  | .setCurrent => 0x05#8
  | .setCurrentCh => 0x06#8
  | .setPower => 0x07#8
  | .setAnalogMin => 0x08#8
  | .setPwmMin => 0x09#8
  | .getLinear => 0x0A#8
  | .interpLin => 0x0B#8

/-- The column "Mask" of R59: the opcode and every must-be-zero bit. -/
def Mnemonic.mask : Mnemonic → CommandWord
  | .setChannel => 0xFF000000#32
  | .setBrightness => 0xFFFFFF00#32
  | .setBrightnessCh => 0xFF00FF00#32
  | .setTunable => 0xFFFF0000#32
  | .setCurrent => 0xFFFF0000#32
  | .setCurrentCh => 0xFF000000#32
  | .setPower => 0xFFFFFFFE#32
  | .setAnalogMin => 0xFFFF0000#32
  | .setPwmMin => 0xFFFFFF00#32
  | .getLinear => 0xFFFFFF00#32
  | .interpLin => 0xFFFF0000#32

/-- The column "Match" of R59. -/
def Mnemonic.matchBits : Mnemonic → CommandWord
  | .setChannel => 0x01000000#32
  | .setBrightness => 0x02000000#32
  | .setBrightnessCh => 0x03000000#32
  | .setTunable => 0x04000000#32
  | .setCurrent => 0x05000000#32
  | .setCurrentCh => 0x06000000#32
  | .setPower => 0x07000000#32
  | .setAnalogMin => 0x08000000#32
  | .setPwmMin => 0x09000000#32
  | .getLinear => 0x0A000000#32
  | .interpLin => 0x0B000000#32

/-- The operand widths of a format in assembly order (R57, R58). -/
def Format.operandWidths : Format → List Nat
  | .cv => [8, 16]
  | .cb => [8, 8]
  | .v16 => [16]
  | .v8 => [8]
  | .bc => [8, 8]
  | .p => [1]

/-- The row of an instruction. -/
def Instr.mnemonic : Instr → Mnemonic
  | .setChannel _ _ => .setChannel
  | .setBrightness _ => .setBrightness
  | .setBrightnessCh _ _ => .setBrightnessCh
  | .setTunable _ _ => .setTunable
  | .setCurrent _ => .setCurrent
  | .setCurrentCh _ _ => .setCurrentCh
  | .setPower _ => .setPower
  | .setAnalogMin _ => .setAnalogMin
  | .setPwmMin _ => .setPwmMin
  | .getLinear _ => .getLinear
  | .interpLin _ => .interpLin

/-- The operands of an instruction as the unsigned numbers of R58, in assembly order. -/
def Instr.operands : Instr → List Nat
  | .setChannel c v => [c.toNat, v.toNat]
  | .setBrightness v => [v.toNat]
  | .setBrightnessCh c v => [c.toNat, v.toNat]
  | .setTunable b t => [b.toNat, t.toNat]
  | .setCurrent v => [v.toNat]
  | .setCurrentCh c v => [c.toNat, v.toNat]
  | .setPower s => [s.toNat]
  | .setAnalogMin v => [v.toNat]
  | .setPwmMin v => [v.toNat]
  | .getLinear v => [v.toNat]
  | .interpLin x => [x.toNat]

/-- A command as assembly writes it: a mnemonic and plain numbers (R65). -/
structure SourceCommand where
  mnemonic : Mnemonic
  operands : List Nat
  deriving DecidableEq, Repr

/-- The command has as many operands as its format (R57, R65). -/
def SourceCommand.countOk (c : SourceCommand) : Bool :=
  c.operands.length == c.mnemonic.format.operandWidths.length

/-- Each operand fits its field (R58, R65: "An operand that does not fit its field is an assembly error"). -/
def SourceCommand.widthsOk (c : SourceCommand) : Bool :=
  (List.zipWith (fun n width => decide (n < 2 ^ width)) c.operands c.mnemonic.format.operandWidths).all id

/-- The well-formed source commands. -/
def SourceCommand.wellFormed (c : SourceCommand) : Bool :=
  c.countOk && c.widthsOk

/-- The source form of an instruction. -/
def Instr.toSource (i : Instr) : SourceCommand :=
  ⟨i.mnemonic, i.operands⟩

/-- An instruction is well-formed when its source form is; its operand types make every instruction so (`Laws.wellFormed_all`). -/
def Instr.wellFormed (i : Instr) : Bool :=
  i.toSource.wellFormed

/-- The word encodes the row's command: `(w & Mask) == Match` (R59). -/
def Mnemonic.matchesWord (m : Mnemonic) (w : CommandWord) : Bool :=
  (w &&& m.mask) == m.matchBits

/-- A command word is well-formed when some row matches it (R59); every other word is reserved (R61, R62). -/
def wordWellFormed (w : CommandWord) : Bool :=
  Mnemonic.all.any fun m => m.matchesWord w

end Sys2Proof
end

