-- ==== Sys2Proof/Decode.lean ====
section
/-! DEFINITION. Decoding and encoding of command words (30_encoding.md R55–R63): the fields of R56, the decoder of R60, total on all
2^32 words and refusing by name, and the encoder written from the formats of R57. -/

namespace Sys2Proof

/-- `OP = w[31:24]` (R56). -/
def opField (w : CommandWord) : Byte := w.extractLsb' 24 8

/-- `CH = w[23:16]` (R56). -/
def chField (w : CommandWord) : Byte := w.extractLsb' 16 8

/-- `IMM = w[15:0]` (R56). -/
def immField (w : CommandWord) : Word := w.extractLsb' 0 16

/-- `IMM[15:8]`, the operand `B` of `F_BC` (R57). -/
def immHigh (w : CommandWord) : Byte := w.extractLsb' 8 8

/-- `IMM[7:0]`, the operands `V8` and `C` (R57). -/
def immLow (w : CommandWord) : Byte := w.extractLsb' 0 8

/-- Why the decoder refuses a word (R60). -/
inductive DecodeError where
  /-- `ReservedOpcode(op)` (R61). -/
  | reservedOpcode (op : Byte)
  /-- `NonzeroReservedField(w)` (R62). -/
  | nonzeroReservedField (w : CommandWord)
  deriving DecidableEq, Repr

/-- The decoder of R60, case by case. -/
def decode (w : CommandWord) : Except DecodeError Instr :=
  match opField w with
  | 0x01#8 => .ok (.setChannel (chField w) (immField w))
  | 0x02#8 =>
    if chField w = 0 ∧ immHigh w = 0 then .ok (.setBrightness (immLow w)) else .error (.nonzeroReservedField w)
  | 0x03#8 =>
    if immHigh w = 0 then .ok (.setBrightnessCh (chField w) (immLow w)) else .error (.nonzeroReservedField w)
  | 0x04#8 =>
    if chField w = 0 then .ok (.setTunable (immHigh w) (immLow w)) else .error (.nonzeroReservedField w)
  | 0x05#8 =>
    if chField w = 0 then .ok (.setCurrent (immField w)) else .error (.nonzeroReservedField w)
  | 0x06#8 => .ok (.setCurrentCh (chField w) (immField w))
  | 0x07#8 =>
    if chField w = 0 ∧ w.extractLsb' 1 15 = 0 then .ok (.setPower (w.getLsbD 0)) else .error (.nonzeroReservedField w)
  | 0x08#8 =>
    if chField w = 0 then .ok (.setAnalogMin (immField w)) else .error (.nonzeroReservedField w)
  | 0x09#8 =>
    if chField w = 0 ∧ immHigh w = 0 then .ok (.setPwmMin (immLow w)) else .error (.nonzeroReservedField w)
  | 0x0A#8 =>
    if chField w = 0 ∧ immHigh w = 0 then .ok (.getLinear (immLow w)) else .error (.nonzeroReservedField w)
  | 0x0B#8 =>
    if chField w = 0 then .ok (.interpLin (immField w)) else .error (.nonzeroReservedField w)
  | op => .error (.reservedOpcode op)

/-- The word with fields `OP`, `CH` and `IMM` (R56). -/
def commandWord (op ch : Byte) (imm : Word) : CommandWord := op ++ ch ++ imm

/-- The word of a command: the formats of R57 with the opcodes of R59. -/
def encode : Instr → CommandWord
  | .setChannel c v => commandWord 0x01 c v
  | .setBrightness v => commandWord 0x02 0 (0#8 ++ v)
  | .setBrightnessCh c v => commandWord 0x03 c (0#8 ++ v)
  | .setTunable b t => commandWord 0x04 0 (b ++ t)
  | .setCurrent v => commandWord 0x05 0 v
  | .setCurrentCh c v => commandWord 0x06 c v
  | .setPower s => commandWord 0x07 0 (0#15 ++ BitVec.ofBool s)
  | .setAnalogMin v => commandWord 0x08 0 v
  | .setPwmMin v => commandWord 0x09 0 (0#8 ++ v)
  | .getLinear v => commandWord 0x0A 0 (0#8 ++ v)
  | .interpLin x => commandWord 0x0B 0 x

/-- The command word whose low `nbits` bits are `w` and whose other bits are 0; a word is delivered whole (R42, R55). -/
def tableWord (nbits w : Nat) : CommandWord := BitVec.ofNat 32 (w % 2 ^ nbits)

/-- What the decoder reads from the bits `w` of an opcode-table row (log entry 18). -/
def decodeTableWord (nbits w : Nat) : Option Instr :=
  if nbits ≤ 32 then (decode (tableWord nbits w)).toOption else none

end Sys2Proof
end

