-- ==== Sys2Proof/Machine/Ops.lean ====
section
/-! DEFINITION. The named operations on the state (00_scope.md R10): reading and writing the configuration, emitting, the rail, the
result register, completing a command, taking the host's next word, refusing a word, and the host's observations. The core has no
memory and takes no exception (R40, R145), so no operation of either kind exists. -/

namespace Sys2Proof.Machine

/-- `CFG.CURRENT[c - 1]` (R12, R25). -/
def Cfg.current (cfg : Cfg) : Channel → Word
  | .ch1 => cfg.current0
  | .ch2 => cfg.current1

/-- `CFG.CURRENT[c - 1] <- v` (R10, R120). -/
def Cfg.setCurrent (cfg : Cfg) (c : Channel) (v : Word) : Cfg :=
  match c with
  | .ch1 => { cfg with current0 := v }
  | .ch2 => { cfg with current1 := v }

/-- A register that something has just written. -/
def Held.holding {α : Type} (v : α) : Held α := ⟨v, true⟩

/-- The field of R34's record: `none` = no value, while nothing has written the register. -/
def Held.record {α : Type} (h : Held α) : Option α := if h.written then some h.value else none

/-- `OUT[c]` (R31). -/
def State.out (s : State) : Channel → Held OutPair
  | .ch1 => s.out1
  | .ch2 => s.out2

/-- `OUT[c] <- (p, a)` (R10). -/
def State.setOut (s : State) (c : Channel) (pair : OutPair) : State :=
  match c with
  | .ch1 => { s with out1 := .holding pair }
  | .ch2 => { s with out2 := .holding pair }

/-- Replaces the configuration. -/
def State.setCfg (s : State) (cfg : Cfg) : State := { s with cfg := cfg }

/-- Appends an event to `EVENTS` (R32). -/
def State.log (s : State) (e : Event) : State := { s with events := s.events ++ [e] }

/-- The event of emitting a pair on a channel (R32). -/
def emissionOf (c : Channel) (pair : OutPair) : Event := .emit c pair.pwm pair.alevel

/-- `Emit(c, p, a)`: the event and the latch in one step (R10, R32, R105). -/
def State.emit (s : State) (c : Channel) (pair : OutPair) : State := (s.log (emissionOf c pair)).setOut c pair

/-- `Rail(b)`: the event and `RAIL_ON <- b` (R10, R32). -/
def State.rail (s : State) (b : Bool) : State := { s.log (.rail b) with railOn := .holding b }

/-- `RESULT <- v` (R10, R33). -/
def State.setResult (s : State) (v : Word) : State := { s with result := .holding v }

/-- The end of every executed command: `POS` counts it (R34, R35). -/
def State.countCommand (s : State) : State := { s with pos := s.pos + 1 }

/-- A command completes: a next state, whose `POS` counts it (R11, R140). -/
def State.complete (s : State) : Host.Outcome State Fault Refusal := .next s.countCommand

/-- The host's next command word and the state once it is taken; `none` when the host has issued none (log entry 2). -/
def State.takeCommand (s : State) : Option (CommandWord × State) :=
  match s.input with
  | [] => none
  | w :: rest => some (w, { s with input := rest })

/-- The core waits for a command: nothing changes (R162; DEDUCED, log entry 3). -/
def State.wait (s : State) : Host.Outcome State Fault Refusal := .next s

/-- `REFUSED` set and nothing else changed (R11, R61). -/
def State.markRefused (s : State) : State := { s with refused := true }

/-- The refusal of a word the decoder refuses, with the state it leaves (R61, R62). -/
def State.refuseWord (s : State) : DecodeError → Host.Outcome State Fault Refusal
  | .reservedOpcode op => .refused (.reservedOpcode op s.markRefused)
  | .nonzeroReservedField w => .refused (.nonzeroReservedField w s.markRefused)

/-- The host reads `OUT[c]`. Until the first emission on `c`, where R34 and R161 call the read a fault of the observation, it gives the
free value the latch holds, and `written` says so (DESIGN CHOICE, log entry 4). -/
def readOut (c : Channel) (s : State) : OutPair := (s.out c).value

/-- The host reads `RAIL_ON`; until the first `SET_POWER` it gives a free value (R34, R161; DESIGN CHOICE, log entry 4). -/
def readRail (s : State) : Bool := s.railOn.value

/-- The host reads `RESULT`; until the first query it gives a free value (R34, R150, R161; DESIGN CHOICE, log entry 4). -/
def readResult (s : State) : Word := s.result.value

end Sys2Proof.Machine
end

