-- ==== Sys2Proof/Machine/Mapper.lean ====
section
/-! DEFINITION. The Channel Mapper (42_channel_mapper.md R97–R106): its steps as functions over the configuration, the parameters as an
argument, and the command `SET_CHANNEL`. -/

namespace Sys2Proof.Machine

/-- Step 1, current scaling: `(v * CURRENT) // 65535` (R99). -/
def scaleToCeiling (v current : Word) : Word := BitVec.ofNat 16 (v.toNat * current.toNat / 65535)

/-- The regions of R100 to R103. -/
inductive Region where
  | off
  | pwmOnly
  | analog
  deriving DecidableEq, Repr

/-- Step 2, the region decision: the off test first, then the threshold (R100, R101, R103). -/
def regionOf (cfg : Cfg) (scaled : Word) : Region :=
  if scaled = 0 then .off else if scaled < cfg.analogMin then .pwmOnly else .analog

/-- `pwm0` of the PWM-only region: `(scaled * 255) // ANALOG_MIN` (R101; the divisor UNVERIFIED, log entry 10). -/
def computedDuty (cfg : Cfg) (scaled : Word) : Byte := BitVec.ofNat 8 (scaled.toNat * 255 / cfg.analogMin.toNat)

/-- The floor, tested on the computed duty (R102; UNVERIFIED, log entry 11). -/
def floorDuty (cfg : Cfg) (pwm0 : Byte) : Byte := if pwm0 ≠ 0 ∧ pwm0 < cfg.pwmMin then cfg.pwmMin else pwm0

/-- The duty of each region (R100 to R103). -/
def dutyOf (cfg : Cfg) (scaled : Word) : Byte :=
  match regionOf cfg scaled with
  | .off => 0
  | .pwmOnly => floorDuty cfg (computedDuty cfg scaled)
  | .analog => 255

/-- The pre-correction analog level of each region (R100, R101, R103). -/
def preLevel (cfg : Cfg) (scaled : Word) : Word :=
  match regionOf cfg scaled with
  | .off => cfg.analogMin
  | .pwmOnly => cfg.analogMin
  | .analog => scaled

/-- Step 3, correction and inversion: `0xFFFF - LinCorr(pre)` (R104; in every region: UNVERIFIED, log entry 11). -/
def emittedLevel (P : Config.Params) (pre : Word) : Word := BitVec.ofNat 16 (65535 - (linCorr P pre).toNat)

/-- `MapChannel(CFG, c, v)` (R106). -/
def mapChannel (P : Config.Params) (cfg : Cfg) (c : Channel) (v : Word) : OutPair :=
  let scaled := scaleToCeiling v (cfg.current c)
  ⟨dutyOf cfg scaled, emittedLevel P (preLevel cfg scaled)⟩

/-- `Map(c, v)` for a valid channel: map and emit (R97, R105). -/
def mapAndEmit (P : Config.Params) (s : State) (c : Channel) (v : Word) : State := s.emit c (mapChannel P s.cfg c v)

/-- `Map(c, v)` for a channel operand: a number that names no channel does nothing (R97, R98). -/
def mapOperand (P : Config.Params) (s : State) (c : Byte) (v : Word) : State :=
  match channelOf c with
  | some ch => mapAndEmit P s ch v
  | none => s

/-- `SET_CHANNEL c, v` (R97). -/
def execSetChannel (c : Byte) (v : Word) (s : State) : Host.Outcome State Fault Refusal :=
  (mapOperand Config.params s c v).complete

end Sys2Proof.Machine
end

