-- ==== Sys2Proof/Machine/Composite.lean ====
section
/-! DEFINITION. The composite requests (43_composite_ops.md): `SET_BRIGHTNESS`, `SET_BRIGHTNESS_CH`, `SET_TUNABLE` and `SET_POWER`, each
over the Channel Mapper and in the order `EMIT_ORDER` (R124). -/

namespace Sys2Proof.Machine

/-- `BrightnessToLinear(v) = GAMMA[v]` (41_brightness_curve.md R90). -/
def brightnessToLinear (P : Config.Params) (v : Byte) : Word := P.gamma v

/-- `for c in Order(EMIT_ORDER) do Map(c, request c)` (R115, R117, R121): both latches, and the two events in the order `EMIT_ORDER`. The
order touches `EVENTS` alone (R124), so it stands there alone; `mapBoth_eq_loop` of Laws/Commands.lean says that this is the loop. -/
def mapBoth (P : Config.Params) (s : State) (request : Channel → Word) : State :=
  let pair := fun c => mapChannel P s.cfg c (request c)
  { s with
    out1 := .holding (pair .ch1)
    out2 := .holding (pair .ch2)
    events := s.events ++ (emissionOrder P.emitOrder).map fun c => emissionOf c (pair c) }

/-- The body of `SET_BRIGHTNESS v` (R115). -/
def requestBrightness (P : Config.Params) (s : State) (v : Byte) : State := mapBoth P s fun _ => brightnessToLinear P v

/-- `cool = (t * lin) // 255` (R117; the divisor UNVERIFIED, log entry 10). -/
def coolPart (lin : Word) (t : Byte) : Word := BitVec.ofNat 16 (t.toNat * lin.toNat / 255)

/-- `warm = lin - cool` (R117). -/
def warmPart (lin : Word) (t : Byte) : Word := BitVec.ofNat 16 (lin.toNat - (coolPart lin t).toNat)

/-- What `SET_TUNABLE` requests of each channel: warm of channel 1, cool of channel 2 (R117). -/
def tunableRequest (lin : Word) (t : Byte) : Channel → Word
  | .ch1 => warmPart lin t
  | .ch2 => coolPart lin t

/-- The body of `SET_TUNABLE b, t` (R117). -/
def requestTunable (P : Config.Params) (s : State) (b t : Byte) : State :=
  mapBoth P s (tunableRequest (brightnessToLinear P b) t)

/-- The body of `SET_POWER s` (R121): off forces brightness 0 first, then switches the rail; on switches the rail only
(off as `SET_BRIGHTNESS 0`: UNVERIFIED, log entry 11). -/
def switchPower (P : Config.Params) (s : State) (on : Bool) : State :=
  if on then s.rail true else (requestBrightness P s 0).rail false

/-- `SET_BRIGHTNESS v` (R115). -/
def execSetBrightness (v : Byte) (s : State) : Host.Outcome State Fault Refusal :=
  (requestBrightness Config.params s v).complete

/-- `SET_BRIGHTNESS_CH c, v` (R116). -/
def execSetBrightnessCh (c v : Byte) (s : State) : Host.Outcome State Fault Refusal :=
  (mapOperand Config.params s c (brightnessToLinear Config.params v)).complete

/-- `SET_TUNABLE b, t` (R117). -/
def execSetTunable (b t : Byte) (s : State) : Host.Outcome State Fault Refusal :=
  (requestTunable Config.params s b t).complete

/-- `SET_POWER s` (R121). -/
def execSetPower (on : Bool) (s : State) : Host.Outcome State Fault Refusal :=
  (switchPower Config.params s on).complete

end Sys2Proof.Machine
end

