-- ==== Sys2Proof/Machine/Queries.lean ====
section
/-! DEFINITION. The query commands, which write `RESULT` and nothing else: `GET_LINEAR` (41_brightness_curve.md R91) and `INTERP_LIN`
(40_interpolator.md R87). -/

namespace Sys2Proof.Machine

/-- `GET_LINEAR v` (R91). -/
def execGetLinear (v : Byte) (s : State) : Host.Outcome State Fault Refusal :=
  (s.setResult (brightnessToLinear Config.params v)).complete

/-- `INTERP_LIN x` (R87). -/
def execInterpLin (x : Word) (s : State) : Host.Outcome State Fault Refusal :=
  (s.setResult (linCorr Config.params x)).complete

end Sys2Proof.Machine
end

