-- ==== Sys2Proof/Machine/Setters.lean ====
section
/-! DEFINITION. The configuration setters (43_composite_ops.md R119, R120, R122, R123): they write the configuration and emit nothing. -/

namespace Sys2Proof.Machine

/-- `SET_CURRENT v` (R119). -/
def execSetCurrent (v : Word) (s : State) : Host.Outcome State Fault Refusal :=
  (s.setCfg { s.cfg with current0 := v, current1 := v }).complete

/-- `CFG.CURRENT[c - 1] <- v` for a channel operand; a number that names no channel writes nothing (R120). -/
def setCeilingOperand (s : State) (c : Byte) (v : Word) : State :=
  match channelOf c with
  | some ch => s.setCfg (s.cfg.setCurrent ch v)
  | none => s

/-- `SET_CURRENT_CH c, v` (R120). -/
def execSetCurrentCh (c : Byte) (v : Word) (s : State) : Host.Outcome State Fault Refusal :=
  (setCeilingOperand s c v).complete

/-- `SET_ANALOG_MIN v` (R122). -/
def execSetAnalogMin (v : Word) (s : State) : Host.Outcome State Fault Refusal :=
  (s.setCfg { s.cfg with analogMin := v }).complete

/-- `SET_PWM_MIN v` (R123). -/
def execSetPwmMin (v : Byte) (s : State) : Host.Outcome State Fault Refusal :=
  (s.setCfg { s.cfg with pwmMin := v }).complete

end Sys2Proof.Machine
end

