-- ==== Sys2Proof/Machine/Dispatch.lean ====
section
/-! DEFINITION. The meaning of each command: one arm per constructor of Instr (30_encoding.md R59). -/

namespace Sys2Proof.Machine

def exec (i : Instr) (s : State) : Host.Outcome State Fault Refusal :=
  match i with
  | .setChannel c v => Sys2Proof.Machine.execSetChannel c v s
  | .setBrightness v => Sys2Proof.Machine.execSetBrightness v s
  | .setBrightnessCh c v => Sys2Proof.Machine.execSetBrightnessCh c v s
  | .setTunable b t => Sys2Proof.Machine.execSetTunable b t s
  | .setCurrent v => Sys2Proof.Machine.execSetCurrent v s
  | .setCurrentCh c v => Sys2Proof.Machine.execSetCurrentCh c v s
  | .setPower on => Sys2Proof.Machine.execSetPower on s
  | .setAnalogMin v => Sys2Proof.Machine.execSetAnalogMin v s
  | .setPwmMin v => Sys2Proof.Machine.execSetPwmMin v s
  | .getLinear v => Sys2Proof.Machine.execGetLinear v s
  | .interpLin x => Sys2Proof.Machine.execInterpLin x s

end Sys2Proof.Machine
end

