-- ==== Sys2Proof/Machine/Step.lean ====
section
/-! DEFINITION. One step (00_scope.md R6, R11): take the host's next word, decode it, run it or refuse it; wait when there is none (R162). -/

namespace Sys2Proof.Machine

/-- One atomic step: one command (R6), a refusal (R61, R62), or waiting for a command (R162, log entry 3). -/
def step (s : State) : Host.Outcome State Fault Refusal :=
  match s.takeCommand with
  | none => s.wait
  | some (w, t) =>
    match decode w with
    | .ok i => exec i t
    | .error e => t.refuseWord e

/-- The state with the given word issued by the host as its next command (log entries 2 and 18). -/
def State.withFetchWord (s : State) (nbits w : Nat) : State := { s with input := tableWord nbits w :: s.input }

end Sys2Proof.Machine
end

