-- ==== Sys2Proof/Machine/Assembler.lean ====
section
/-! DEFINITION. The assembly syntax (30_encoding.md R65, R66): from a mnemonic with numbers to a command, and from one line of text to a
mnemonic with numbers. The core itself never sees text; the words it runs are `encode` of the command. -/

namespace Sys2Proof.Machine

/-- Why a line does not assemble (R65). -/
inductive AsmError where
  | unknownMnemonic
  | badNumber
  | wrongOperandCount
  | operandTooWide
  deriving DecidableEq, Repr

/-- One operand of the given width; a number that does not fit is an error, never truncated (R65). -/
def oneOperand (width : Nat) : List Nat → Except AsmError (BitVec width)
  | [n] => if n < 2 ^ width then .ok (BitVec.ofNat width n) else .error .operandTooWide
  | [] => .error .wrongOperandCount
  | _ :: _ :: _ => .error .wrongOperandCount

/-- Two operands of the given widths. -/
def twoOperands (width₁ width₂ : Nat) : List Nat → Except AsmError (BitVec width₁ × BitVec width₂)
  | [m, n] =>
    if m < 2 ^ width₁ ∧ n < 2 ^ width₂ then .ok (BitVec.ofNat width₁ m, BitVec.ofNat width₂ n) else .error .operandTooWide
  | [] => .error .wrongOperandCount
  | [_] => .error .wrongOperandCount
  | _ :: _ :: _ :: _ => .error .wrongOperandCount

/-- The command a mnemonic and its numbers stand for (the table of R65). -/
def assemble (src : SourceCommand) : Except AsmError Instr :=
  match src.mnemonic with
  | .setChannel => (twoOperands 8 16 src.operands).map fun p => .setChannel p.1 p.2
  | .setBrightness => (oneOperand 8 src.operands).map .setBrightness
  | .setBrightnessCh => (twoOperands 8 8 src.operands).map fun p => .setBrightnessCh p.1 p.2
  | .setTunable => (twoOperands 8 8 src.operands).map fun p => .setTunable p.1 p.2
  | .setCurrent => (oneOperand 16 src.operands).map .setCurrent
  | .setCurrentCh => (twoOperands 8 16 src.operands).map fun p => .setCurrentCh p.1 p.2
  | .setPower => (oneOperand 1 src.operands).map fun s => .setPower (s.getLsbD 0)
  | .setAnalogMin => (oneOperand 16 src.operands).map .setAnalogMin
  | .setPwmMin => (oneOperand 8 src.operands).map .setPwmMin
  | .getLinear => (oneOperand 8 src.operands).map .getLinear
  | .interpLin => (oneOperand 16 src.operands).map .interpLin

/-- A space or a tab (DESIGN CHOICE, log entry 17). -/
def isBlank (c : Char) : Bool := c == ' ' || c == '\t'

/-- The text without blanks at either end. -/
def trimBlanks (l : List Char) : List Char := ((l.dropWhile isBlank).reverse.dropWhile isBlank).reverse

/-- The value of a digit, decimal or hexadecimal; letters of either case (log entry 17). -/
def digitValue (c : Char) : Option Nat :=
  let n := c.toNat
  if 48 ≤ n ∧ n ≤ 57 then some (n - 48)
  else if 97 ≤ n ∧ n ≤ 102 then some (n - 87)
  else if 65 ≤ n ∧ n ≤ 70 then some (n - 55)
  else none

/-- The number whose digits in the given base follow the value `acc` read so far. -/
def digitsFrom (base acc : Nat) : List Char → Option Nat
  | [] => some acc
  | c :: rest =>
    match digitValue c with
    | some d => if d < base then digitsFrom base (acc * base + d) rest else none
    | none => none

/-- "a decimal number or a `0x` hexadecimal number" (R65). -/
def parseNumber (text : List Char) : Option Nat :=
  match text with
  | [] => none
  | '0' :: 'x' :: c :: rest => digitsFrom 16 0 (c :: rest)
  | c :: rest => digitsFrom 10 0 (c :: rest)

/-- The pieces of a text between its commas. -/
def splitCommas : List Char → List (List Char)
  | [] => [[]]
  | c :: rest =>
    if c == ',' then [] :: splitCommas rest
    else
      match splitCommas rest with
      | [] => [[c]]
      | piece :: more => (c :: piece) :: more

/-- The operands of a line: none, or numbers separated by commas (R65). -/
def parseOperands (text : List Char) : Option (List Nat) :=
  if trimBlanks text = [] then some [] else (splitCommas text).mapM fun piece => parseNumber (trimBlanks piece)

/-- The mnemonic of the given spelling (R59, R65). -/
def mnemonicOf (text : List Char) : Option Mnemonic := Mnemonic.all.find? fun m => m.name.toList == text

/-- One line of assembly: a comment from `;` on, the mnemonic, its operands; a line with nothing but a comment gives no command (R65). -/
def assembleLine (line : String) : Except AsmError (Option Instr) :=
  let text := trimBlanks (line.toList.takeWhile fun c => c != ';')
  if text = [] then .ok none
  else
    match mnemonicOf (text.takeWhile fun c => !isBlank c) with
    | none => .error .unknownMnemonic
    | some m =>
      match parseOperands (text.dropWhile fun c => !isBlank c) with
      | none => .error .badNumber
      | some ops => (assemble ⟨m, ops⟩).map some

end Sys2Proof.Machine
end

