-- ==== Sys2Proof/Safety.lean ====
section
/-! DEFINITION. The terms claims use: what a trusted state is (60_exceptions.md R142), how the latches relate to the emission log
(10_state.md R32), which commands emit and which write the configuration (R125, R35), and what a run of commands may log. -/

namespace Sys2Proof.Machine

/-- The premise of R142: no refusal has happened. -/
def Trusted (s : State) : Prop := s.refused = false

/-- The pair an event puts into the latch of channel `c`, if it is an emission on `c` (R32). -/
def pairOn (c : Channel) : Event → Option OutPair
  | .emit d p a => if d = c then some ⟨p, a⟩ else none
  | .rail _ => none

/-- The value an event puts into `RAIL_ON`, if it is a rail event (R32). -/
def railOf : Event → Option Bool
  | .emit _ _ _ => none
  | .rail b => some b

/-- A register after writes of which the last, if there is one, is the given value. -/
def Held.after {α : Type} (h : Held α) : Option α → Held α
  | some v => .holding v
  | none => h

/-- Each latch holds the pair of the last emission on its channel, and `RAIL_ON` the last rail event; none of them is written while the
log has no such event (R31, R32, R34). -/
structure LatchesFollowLog (s : State) : Prop where
  out1 : s.out1.record = (s.events.filterMap (pairOn .ch1)).getLast?
  out2 : s.out2.record = (s.events.filterMap (pairOn .ch2)).getLast?
  rail : s.railOn.record = (s.events.filterMap railOf).getLast?

/-- A duty is 0 or at least the floor: no duty lies in `(0, PWM_MIN)` (R108). -/
def DutyAboveFloor (floor : Byte) : Event → Prop
  | .emit _ p _ => p = 0 ∨ floor ≤ p
  | .rail _ => True

/-- The event is the emission of a channel pair. -/
def Event.isEmission : Event → Bool
  | .emit _ _ _ => true
  | .rail _ => false

/-- The channel number names a channel (R12). -/
def validChannel (c : Byte) : Bool := c == 1#8 || c == 2#8

/-- The emitting commands (R125). -/
def emitsPair : Instr → Bool
  | .setChannel c _ => validChannel c
  | .setBrightness _ => true
  | .setBrightnessCh c _ => validChannel c
  | .setTunable _ _ => true
  | .setCurrent _ => false
  | .setCurrentCh _ _ => false
  | .setPower s => !s
  | .setAnalogMin _ => false
  | .setPwmMin _ => false
  | .getLinear _ => false
  | .interpLin _ => false

/-- The commands that write the configuration (R35). -/
def writesCfg : Instr → Bool
  | .setChannel _ _ => false
  | .setBrightness _ => false
  | .setBrightnessCh _ _ => false
  | .setTunable _ _ => false
  | .setCurrent _ => true
  | .setCurrentCh c _ => validChannel c
  | .setPower _ => false
  | .setAnalogMin _ => true
  | .setPwmMin _ => true
  | .getLinear _ => false
  | .interpLin _ => false

/-- The commands that write `RESULT` (R33, R35). -/
def writesResult : Instr → Bool
  | .setChannel _ _ => false
  | .setBrightness _ => false
  | .setBrightnessCh _ _ => false
  | .setTunable _ _ => false
  | .setCurrent _ => false
  | .setCurrentCh _ _ => false
  | .setPower _ => false
  | .setAnalogMin _ => false
  | .setPwmMin _ => false
  | .getLinear _ => true
  | .interpLin _ => true

/-- The `y` of a curve never fall (the premise of R83). -/
def YNondecreasing (c : Curve) : Prop := c.points.Pairwise fun p q => p.y ≤ q.y

/-- The `y` of a curve never rise (the premise of R83). -/
def YNonincreasing (c : Curve) : Prop := c.points.Pairwise fun p q => q.y ≤ p.y

/-- `lo` and `hi` are breakpoints of the curve with successive indexes (R80). -/
def Segment (c : Curve) (lo hi : Breakpoint) : Prop := [lo, hi] <:+: c.points

end Sys2Proof.Machine
end

