-- ==== Sys2Proof/Certificates/Slice0/Obligations.lean ====
section
/-! DEFINITION. The statements about this model, from the spec's numbered rules. -/

section
open Sys2Proof Sys2Proof.Machine

/-! ## Encoding (30_encoding.md) -/

/-- R67 (an inference the spec marks as its own): the spec's own encoding examples, read and written; the refused words; `SET_CHANNEL 3, 100` executes as a no-op. -/
def Obligations.SpecExampleWordsDecode : Prop :=
  (decode 0x01018000#32 = .ok (.setChannel 1 32768) ∧ encode (.setChannel 1 32768) = 0x01018000#32) ∧
  (decode 0x01030064#32 = .ok (.setChannel 3 100) ∧ encode (.setChannel 3 100) = 0x01030064#32 ∧
    ∀ s, exec (.setChannel 3 100) s = .next { s with pos := s.pos + 1 }) ∧
  (decode 0x020000FF#32 = .ok (.setBrightness 255) ∧ encode (.setBrightness 255) = 0x020000FF#32) ∧
  (decode 0x03020080#32 = .ok (.setBrightnessCh 2 128) ∧ encode (.setBrightnessCh 2 128) = 0x03020080#32) ∧
  (decode 0x0400C840#32 = .ok (.setTunable 200 64) ∧ encode (.setTunable 200 64) = 0x0400C840#32) ∧
  (decode 0x0500FFFF#32 = .ok (.setCurrent 65535) ∧ encode (.setCurrent 65535) = 0x0500FFFF#32) ∧
  (decode 0x06018000#32 = .ok (.setCurrentCh 1 32768) ∧ encode (.setCurrentCh 1 32768) = 0x06018000#32) ∧
  (decode 0x07000000#32 = .ok (.setPower false) ∧ encode (.setPower false) = 0x07000000#32) ∧
  (decode 0x07000001#32 = .ok (.setPower true) ∧ encode (.setPower true) = 0x07000001#32) ∧
  (decode 0x080007AE#32 = .ok (.setAnalogMin 1966) ∧ encode (.setAnalogMin 1966) = 0x080007AE#32) ∧
  (decode 0x09000005#32 = .ok (.setPwmMin 5) ∧ encode (.setPwmMin 5) = 0x09000005#32) ∧
  (decode 0x0A000000#32 = .ok (.getLinear 0) ∧ encode (.getLinear 0) = 0x0A000000#32) ∧
  (decode 0x0B00FFFF#32 = .ok (.interpLin 65535) ∧ encode (.interpLin 65535) = 0x0B00FFFF#32) ∧
  decode 0x00000000#32 = .error (.reservedOpcode 0x00) ∧
  decode 0x0C000000#32 = .error (.reservedOpcode 0x0C) ∧
  decode 0x02000100#32 = .error (.nonzeroReservedField 0x02000100#32) ∧
  decode 0x05010000#32 = .error (.nonzeroReservedField 0x05010000#32) ∧
  decode 0x07000002#32 = .error (.nonzeroReservedField 0x07000002#32)

/-- R57 to R60: decoding the word of a command gives the command back, for every command and every operand value. -/
def Obligations.DecodeEncodeRoundTrip : Prop := ∀ i : Instr, decode (encode i) = .ok i

/-- R59, D5: a word that decodes is the one encoding of its command. -/
def Obligations.DecodedWordIsItsEncoding : Prop := ∀ (w : CommandWord) (i : Instr), decode w = .ok i → encode i = w

/-- R59: the rows of the table; a word encodes a row's command exactly when `(w & Mask) == Match`, and at most one row matches a word. -/
def Obligations.WordDecodesExactlyWhenItsRowMatches : Prop :=
  ((Mnemonic.all.map fun m => (m.name, m.format, m.opcode, m.mask, m.matchBits)) =
    [("SET_CHANNEL", .cv, 0x01, 0xFF000000, 0x01000000), ("SET_BRIGHTNESS", .v8, 0x02, 0xFFFFFF00, 0x02000000),
      ("SET_BRIGHTNESS_CH", .cb, 0x03, 0xFF00FF00, 0x03000000), ("SET_TUNABLE", .bc, 0x04, 0xFFFF0000, 0x04000000),
      ("SET_CURRENT", .v16, 0x05, 0xFFFF0000, 0x05000000), ("SET_CURRENT_CH", .cv, 0x06, 0xFF000000, 0x06000000),
      ("SET_POWER", .p, 0x07, 0xFFFFFFFE, 0x07000000), ("SET_ANALOG_MIN", .v16, 0x08, 0xFFFF0000, 0x08000000),
      ("SET_PWM_MIN", .v8, 0x09, 0xFFFFFF00, 0x09000000), ("GET_LINEAR", .v8, 0x0A, 0xFFFFFF00, 0x0A000000),
      ("INTERP_LIN", .v16, 0x0B, 0xFFFF0000, 0x0B000000)]) ∧
  (∀ (w : CommandWord) (m : Mnemonic), (w &&& m.mask) = m.matchBits ↔ ∃ i, decode w = .ok i ∧ i.mnemonic = m) ∧
  ∀ (w : CommandWord) (m n : Mnemonic), (w &&& m.mask) = m.matchBits → (w &&& n.mask) = n.matchBits → m = n

/-- R61: a reserved opcode is refused, `REFUSED` is set and no architectural state changes. The form in which the refusal carries that
state, and that the word is consumed, are the model's choice (log entry 5). -/
def Obligations.ReservedOpcodeIsRefused : Prop :=
  ∀ (s : State) (w : CommandWord) (rest : List CommandWord), s.input = w :: rest →
    (opField w = 0x00 ∨ 0x0C ≤ opField w) →
      step s = .refused (.reservedOpcode (opField w) { s with input := rest, refused := true })

/-- R62: a defined opcode with a must-be-zero bit of its format equal to 1 is refused, with the effect of R61. The form of the refusal is the
model's choice (log entry 5). -/
def Obligations.NonzeroReservedFieldIsRefused : Prop :=
  ∀ (s : State) (w : CommandWord) (rest : List CommandWord) (m : Mnemonic), s.input = w :: rest →
    opField w = m.opcode → (w &&& m.mask) ≠ m.matchBits →
      step s = .refused (.nonzeroReservedField w { s with input := rest, refused := true })

/-- R6, R48, R58: a step runs the command the next word decodes to, on the state without that word; the command is well-formed. That the
host's words stand in the state is the model's choice (log entry 2). -/
def Obligations.StepRunsTheDecodedCommand : Prop :=
  ∀ (s : State) (w : CommandWord) (rest : List CommandWord) (i : Instr), s.input = w :: rest → decode w = .ok i →
    step s = exec i { s with input := rest } ∧ i.wellFormed = true

/-- R162: with no command issued the core waits. That waiting is a step that changes nothing is the model's inference (log entry 3). -/
def Obligations.StepWaitsWithoutACommand : Prop := ∀ s : State, s.input = [] → step s = .next s

/-- R63, R98: a channel number outside {1, 2} decodes normally and executes as a silent no-op, in all three commands with a channel. -/
def Obligations.OtherChannelNumbersAreSilentNoOps : Prop :=
  ∀ (s : State) (c : Byte) (v : Word) (b : Byte), c ≠ 1 → c ≠ 2 →
    (decode (0x01#8 ++ c ++ v) = .ok (.setChannel c v) ∧
      exec (.setChannel c v) s = .next { s with pos := s.pos + 1 }) ∧
    (decode (0x03#8 ++ c ++ (0#8 ++ b)) = .ok (.setBrightnessCh c b) ∧
      exec (.setBrightnessCh c b) s = .next { s with pos := s.pos + 1 }) ∧
    (decode (0x06#8 ++ c ++ v) = .ok (.setCurrentCh c v) ∧
      exec (.setCurrentCh c v) s = .next { s with pos := s.pos + 1 })

/-- R65: the assembler accepts exactly the source form of a command: an operand that does not fit, or a wrong number of operands, is an
error, and no operand is truncated. -/
def Obligations.AssemblerNeverTruncates : Prop :=
  (∀ (src : SourceCommand) (i : Instr), assemble src = .ok i ↔ src = i.toSource) ∧
  ∀ src : SourceCommand, (∃ i, assemble src = .ok i) ↔ src.wellFormed = true

/-! ## The interpolator (40_interpolator.md) -/

/-- R76: at or above the last breakpoint the result is its `y`. -/
def Obligations.InterpClampsOnTheRight : Prop :=
  ∀ (c : Curve) (x : Word), c.last.x ≤ x → interp c x = c.last.y

/-- R77 (an inference the spec marks as its own): at or below the first breakpoint the result is its `y`; the two clamps never both apply. -/
def Obligations.InterpClampsOnTheLeft : Prop :=
  ∀ (c : Curve) (x : Word), x ≤ c.first.x → interp c x = c.first.y ∧ ¬ c.last.x ≤ x

/-- R79: a query that equals a breakpoint gives that breakpoint's `y` exactly. -/
def Obligations.InterpIsExactAtBreakpoints : Prop :=
  ∀ (c : Curve) (p : Breakpoint), p ∈ c.points → interp c p.x = p.y

/-- R80, R85 (which segment the scan finds, R78, and that the subtraction stays at or above zero, R82, are inferences the spec marks as
its own): strictly inside the segment of two successive breakpoints the result is that of the slope method, written out; the linearity
curve has exactly the seven breakpoints of the parameters in their order, and inside each of its six segments `LinCorr` is that result. -/
def Obligations.InterpUsesTheSlopeMethod : Prop :=
  (∀ (c : Curve) (lo hi : Breakpoint) (x : Word), Segment c lo hi → lo.x < x → x < hi.x →
    let dx := hi.x.toNat - lo.x.toNat
    let r := x.toNat - lo.x.toNat
    let dy := ((hi.y.toNat : Int) - lo.y.toNat).natAbs
    let slope := dy * 255 / dx
    let delta := slope * r / 255
    2 ≤ dx ∧ 1 ≤ r ∧ r < dx ∧
    (lo.y ≤ hi.y → (interp c x).toNat = lo.y.toNat + delta) ∧
    (hi.y < lo.y → (interp c x).toNat = lo.y.toNat - delta ∧ delta ≤ lo.y.toNat)) ∧
  ∀ P : Config.Params, (linCurve P).points = List.ofFn (fun k : Fin 7 => ⟨P.linX k, P.linY k⟩) ∧
    ∀ (k : Fin 6) (x : Word), P.linX k.castSucc < x → x < P.linX k.succ →
      let dx := (P.linX k.succ).toNat - (P.linX k.castSucc).toNat
      let r := x.toNat - (P.linX k.castSucc).toNat
      let dy := (((P.linY k.succ).toNat : Int) - (P.linY k.castSucc).toNat).natAbs
      let delta := dy * 255 / dx * r / 255
      (P.linY k.castSucc ≤ P.linY k.succ → (linCorr P x).toNat = (P.linY k.castSucc).toNat + delta) ∧
      (P.linY k.succ < P.linY k.castSucc →
        (linCorr P x).toNat = (P.linY k.castSucc).toNat - delta ∧ delta ≤ (P.linY k.castSucc).toNat)

/-- R82 (an inference the spec marks as its own): inside a segment the result lies between the two `y`, may equal the lower index's and never equals the higher index's; a flat
segment gives its `y`; every intermediate is below 2^24. -/
def Obligations.InterpStaysInsideItsSegment : Prop :=
  ∀ (c : Curve) (lo hi : Breakpoint) (x : Word), Segment c lo hi → lo.x < x → x < hi.x →
    let dx := hi.x.toNat - lo.x.toNat
    let r := x.toNat - lo.x.toNat
    let dy := ((hi.y.toNat : Int) - lo.y.toNat).natAbs
    (lo.y < hi.y → lo.y ≤ interp c x ∧ interp c x < hi.y) ∧
    (hi.y < lo.y → hi.y < interp c x ∧ interp c x ≤ lo.y) ∧
    (lo.y = hi.y → interp c x = lo.y) ∧
    (0 < dy → dy * 255 / dx * r / 255 < dy) ∧
    dy * 255 ≤ 16711425 ∧ dy * 255 / dx * r < 2 ^ 24

/-- R83 (an inference the spec marks as its own): a curve whose `y` never fall gives results that never fall over the whole 16-bit domain, and one whose `y` never rise results that
never rise. -/
def Obligations.InterpIsMonotone : Prop :=
  ∀ (c : Curve) (x x' : Word), x ≤ x' →
    (YNondecreasing c → interp c x ≤ interp c x') ∧ (YNonincreasing c → interp c x' ≤ interp c x)

/-- R84: the contract refuses every table with fewer than 2 points or with `xs[k] ≥ xs[k+1]` for some `k`, and no other. -/
def Obligations.IllFormedTablesAreRefused : Prop :=
  (∀ (table : List Breakpoint) (x : Word),
    (table.length < 2 ∨ ∃ (k : Nat) (h : k + 1 < table.length), table[k + 1].x ≤ table[k].x) →
      interpolate table x = .error .illFormedTable) ∧
  ∀ (c : Curve) (x : Word), interpolate c.points x = .ok (interp c x)

/-- R86 (an inference the spec marks as its own): whatever the parameters are, `LinCorr(a) = 61250` for every `a ≥ LIN_X[6]`, in particular at 65535. -/
def Obligations.LinCorrIsKnownAtTheTop : Prop :=
  ∀ P : Config.Params, (∀ a : Word, P.linX 6 ≤ a → linCorr P a = 61250) ∧ linCorr P 65535 = 61250

/-- R87: `INTERP_LIN x`: its word, its effect on every state, its corner cases for every choice of the parameters, and its example. -/
def Obligations.InterpLinWritesTheCorrection : Prop :=
  (∀ (s : State) (x : Word),
    encode (.interpLin x) = 0x0B#8 ++ 0#8 ++ x ∧
    exec (.interpLin x) s = .next { s with result := .holding (linCorr Config.params x), pos := s.pos + 1 }) ∧
  (∀ (P : Config.Params) (x : Word),
    (x ≤ P.linX 0 → linCorr P x = P.linY 0) ∧ linCorr P 0 = P.linY 0 ∧
    (P.linX 6 ≤ x → linCorr P x = 61250) ∧
    (∀ k : Fin 7, x = P.linX k → linCorr P x = P.linY k) ∧
    ∀ k : Fin 6, P.linY k.castSucc = P.linY k.succ → P.linX k.castSucc ≤ x → x ≤ P.linX k.succ →
      linCorr P x = P.linY k.castSucc) ∧
  ∀ s : State, exec (.interpLin 65535) s = .next { s with result := .holding 61250, pos := s.pos + 1 }

/-! ## The brightness curve (41_brightness_curve.md) -/

/-- R90, R91: `GET_LINEAR v`: its word, and `RESULT` is entry `v` of `GAMMA`. -/
def Obligations.GetLinearWritesTheTableEntry : Prop :=
  ∀ (s : State) (v : Byte),
    encode (.getLinear v) = 0x0A#8 ++ 0#8 ++ (0#8 ++ v) ∧
    exec (.getLinear v) s = .next { s with result := .holding (Config.params.gamma v), pos := s.pos + 1 }

/-- R92, R93 (R93 is an inference the spec marks as its own): a larger brightness never gives a smaller linear value, in any two states. -/
def Obligations.GetLinearIsNondecreasing : Prop :=
  ∀ (s₁ s₂ : State) (v₁ v₂ : Byte), v₁ ≤ v₂ →
    ∃ t₁ t₂ : State, exec (.getLinear v₁) s₁ = .next t₁ ∧ exec (.getLinear v₂) s₂ = .next t₂ ∧
      t₁.result.written = true ∧ t₂.result.written = true ∧ readResult t₁ ≤ readResult t₂

/-! ## The channel mapper (42_channel_mapper.md) -/

/-- R99 (its bounds are an inference the spec marks as its own): the scaled value is exact, never above the ceiling, and the ceiling itself exactly for a full request or a zero ceiling. -/
def Obligations.ScalingIsExact : Prop :=
  ∀ v current : Word,
    (scaleToCeiling v current).toNat = v.toNat * current.toNat / 65535 ∧ v.toNat * current.toNat < 2 ^ 32 ∧
    scaleToCeiling v current ≤ current ∧ (scaleToCeiling v current = current ↔ v = 65535 ∨ current = 0)

/-- R106 (an inference the spec marks as its own): `MapChannel` computes the spec's function, written out in exact arithmetic. -/
def Obligations.MapChannelComputesTheSpecFunction : Prop :=
  ∀ (P : Config.Params) (cfg : Cfg) (c : Channel) (v : Word),
    let scaled := v.toNat * (cfg.current c).toNat / 65535
    let threshold := cfg.analogMin.toNat
    let pwm0 := scaled * 255 / threshold
    let pwm := if scaled = 0 then 0
      else if scaled < threshold then (if pwm0 ≠ 0 ∧ pwm0 < cfg.pwmMin.toNat then cfg.pwmMin.toNat else pwm0) else 255
    let pre := if scaled = 0 then threshold else if scaled < threshold then threshold else scaled
    (mapChannel P cfg c v).pwm.toNat = pwm ∧
    (mapChannel P cfg c v).alevel.toNat = 0xFFFF - (linCorr P (BitVec.ofNat 16 pre)).toNat ∧ pre < 2 ^ 16

/-- R100, R103, R104: the off region (duty 0, level of the threshold), the analog region (duty 255, level of the scaled value), and the
inversion of the corrected level, which never wraps. -/
def Obligations.OffAndAnalogRegions : Prop :=
  ∀ (P : Config.Params) (cfg : Cfg) (c : Channel) (v : Word),
    let scaled := scaleToCeiling v (cfg.current c)
    (scaled = 0 → mapChannel P cfg c v = ⟨0, 0xFFFF - linCorr P cfg.analogMin⟩) ∧
    (cfg.analogMin ≤ scaled → scaled ≠ 0 → mapChannel P cfg c v = ⟨255, 0xFFFF - linCorr P scaled⟩) ∧
    ∀ pre : Word, (emittedLevel P pre).toNat + (linCorr P pre).toNat = 65535

/-- R101, R102 (the bounds of R101 are an inference the spec marks as its own): the duty of the PWM-only region and its floor; the level is held at the threshold. -/
def Obligations.PwmRegionDuty : Prop :=
  ∀ (P : Config.Params) (cfg : Cfg) (c : Channel) (v : Word),
    let scaled := scaleToCeiling v (cfg.current c)
    let pwm0 := scaled.toNat * 255 / cfg.analogMin.toNat
    scaled ≠ 0 → scaled < cfg.analogMin →
      2 ≤ cfg.analogMin.toNat ∧ pwm0 ≤ 254 ∧
      (0 < pwm0 → pwm0 < cfg.pwmMin.toNat → (mapChannel P cfg c v).pwm = cfg.pwmMin) ∧
      (pwm0 = 0 ∨ cfg.pwmMin.toNat ≤ pwm0 → (mapChannel P cfg c v).pwm.toNat = pwm0) ∧
      (mapChannel P cfg c v).alevel = 0xFFFF - linCorr P cfg.analogMin

/-- R108 (an inference the spec marks as its own): no emitted duty lies in `(0, PWM_MIN)`; under the reset configuration requests 2 to 15 emit duty 0. -/
def Obligations.NoDutyBelowTheFloor : Prop :=
  (∀ (P : Config.Params) (cfg : Cfg) (c : Channel) (v : Word),
    (mapChannel P cfg c v).pwm = 0 ∨ cfg.pwmMin ≤ (mapChannel P cfg c v).pwm) ∧
  ∀ (P : Config.Params) (c : Channel) (v : Word), 2 ≤ v → v ≤ 15 →
    (mapChannel P State.reset.cfg c v).pwm = 0 ∧
    1 ≤ scaleToCeiling v (State.reset.cfg.current c) ∧ scaleToCeiling v (State.reset.cfg.current c) ≤ 7

/-- R32, R108, R150 (R108 is an inference the spec marks as its own): a step appends at most three events to the log, changes no earlier one, and no duty it appends lies in
`(0, PWM_MIN)` of the configuration it started from. -/
def Obligations.EveryLoggedDutyRespectsTheFloor : Prop :=
  ∀ s t : State, step s = .next t →
    ∃ new : List Event, t.events = s.events ++ new ∧ new.length ≤ 3 ∧ ∀ e ∈ new, DutyAboveFloor s.cfg.pwmMin e

/-- R109 (an inference the spec marks as its own): the two sides of the threshold. -/
def Obligations.ThresholdEdges : Prop :=
  ∀ (cfg : Cfg) (scaled : Word),
    (scaled + 1 = cfg.analogMin → 2 ≤ cfg.analogMin →
      regionOf cfg scaled = .pwmOnly ∧ preLevel cfg scaled = cfg.analogMin ∧
      (computedDuty cfg scaled).toNat = scaled.toNat * 255 / cfg.analogMin.toNat ∧
      (255 ≤ cfg.analogMin → computedDuty cfg scaled = 254) ∧ computedDuty cfg scaled ≤ 254) ∧
    (scaled = cfg.analogMin → scaled ≠ 0 →
      regionOf cfg scaled = .analog ∧ dutyOf cfg scaled = 255 ∧ preLevel cfg scaled = cfg.analogMin)

/-- R107 (an inference the spec marks as its own): a zero request, a zero ceiling and every request with `v * CURRENT < 65535` emit duty 0 with the level of the threshold; for the
reset ceiling that is `v ≤ 1`. -/
def Obligations.SmallRequestsTurnTheChannelOff : Prop :=
  (∀ (P : Config.Params) (cfg : Cfg) (c : Channel) (v : Word),
    (v.toNat * (cfg.current c).toNat < 65535 ∨ v = 0 ∨ cfg.current c = 0) →
      mapChannel P cfg c v = ⟨0, 0xFFFF - linCorr P cfg.analogMin⟩) ∧
  ∀ v : Word, v.toNat * 32768 < 65535 ↔ v ≤ 1

/-- R110 (an inference the spec marks as its own): every configuration has a defined result: the four extremes. -/
def Obligations.UnvalidatedConfigurationIsDefined : Prop :=
  ∀ (cfg : Cfg) (scaled : Word) (pwm0 : Byte) (c : Channel) (v : Word),
    (cfg.analogMin = 0 → scaled ≠ 0 → regionOf cfg scaled = .analog) ∧
    (regionOf cfg scaled = .pwmOnly → cfg.analogMin ≠ 0) ∧
    (cfg.current c < cfg.analogMin → scaleToCeiling v (cfg.current c) ≠ 0 →
      regionOf cfg (scaleToCeiling v (cfg.current c)) = .pwmOnly) ∧
    (cfg.pwmMin = 0 → floorDuty cfg pwm0 = pwm0) ∧
    (cfg.pwmMin = 255 → pwm0 ≠ 0 → floorDuty cfg pwm0 = 255)

/-- R111 (an inference the spec marks as its own): after a ceiling command, a full request has the ceiling as its scaled value and takes the region the ceiling selects. -/
def Obligations.CeilingThenFullRequest : Prop :=
  ∀ (s : State) (c : Channel) (X : Word) (set : Instr),
    set = .setCurrentCh c.number X ∨ set = .setCurrent X →
      ∃ t u : State, exec set s = .next t ∧ exec (.setChannel c.number 65535) t = .next u ∧
        scaleToCeiling 65535 (t.cfg.current c) = X ∧
        u.out c = .holding ⟨dutyOf t.cfg X, 0xFFFF - linCorr Config.params (preLevel t.cfg X)⟩ ∧
        regionOf t.cfg X = (if X = 0 then .off else if X < s.cfg.analogMin then .pwmOnly else .analog)

/-- R112 (an inference the spec marks as its own): with a full ceiling a full request emits `(255, 4285)`, whatever the thresholds hold. -/
def Obligations.FullScaleRequest : Prop :=
  ∀ (s : State) (c : Channel), s.cfg.current c = 65535 →
    exec (.setChannel c.number 65535) s =
      .next { s.setOut c ⟨255, 4285⟩ with events := s.events ++ [.emit c 255 4285], pos := s.pos + 1 }

/-- R113 (an inference the spec marks as its own): the same request twice logs two identical events and leaves the latch as the first left it. -/
def Obligations.RepeatedRequestLogsTwice : Prop :=
  ∀ (s : State) (c : Channel) (v : Word),
    ∃ (t u : State) (e : Event), exec (.setChannel c.number v) s = .next t ∧ exec (.setChannel c.number v) t = .next u ∧
      t.events = s.events ++ [e] ∧ u.events = s.events ++ [e, e] ∧ u.out c = t.out c

/-- R97, R105: `SET_CHANNEL`: its word; for a valid channel the pair of `MapChannel` is latched and logged and nothing else changes; for any
other number nothing does; the rule's example. -/
def Obligations.SetChannelMapsAndEmits : Prop :=
  (∀ (c : Byte) (v : Word), encode (.setChannel c v) = 0x01#8 ++ c ++ v) ∧
  (∀ (s : State) (v : Word),
    let pair₁ := mapChannel Config.params s.cfg .ch1 v
    let pair₂ := mapChannel Config.params s.cfg .ch2 v
    exec (.setChannel 1 v) s = .next { s with
      out1 := .holding pair₁, events := s.events ++ [.emit .ch1 pair₁.pwm pair₁.alevel], pos := s.pos + 1 } ∧
    exec (.setChannel 2 v) s = .next { s with
      out2 := .holding pair₂, events := s.events ++ [.emit .ch2 pair₂.pwm pair₂.alevel], pos := s.pos + 1 }) ∧
  (∀ (s : State) (c : Byte) (v : Word), c ≠ 1 → c ≠ 2 → exec (.setChannel c v) s = .next { s with pos := s.pos + 1 }) ∧
  ∀ s : State, s.cfg = State.reset.cfg →
    ∃ t, exec (.setChannel 1 100) s = .next t ∧
      t.events = s.events ++ [.emit .ch1 6 (0xFFFF - linCorr Config.params 1966)]

/-! ## Composite operations and setters (43_composite_ops.md) -/

/-- R115: `SET_BRIGHTNESS`: its word; both latches take the pair of the table entry, and the two events are logged in the order of the
parameter; nothing else changes; equal ceilings give equal pairs. -/
def Obligations.SetBrightnessEmitsOnBothChannels : Prop :=
  ∀ (s : State) (v : Byte),
    let pair := fun c => mapChannel Config.params s.cfg c (Config.params.gamma v)
    let e₁ := Event.emit .ch1 (pair .ch1).pwm (pair .ch1).alevel
    let e₂ := Event.emit .ch2 (pair .ch2).pwm (pair .ch2).alevel
    encode (.setBrightness v) = 0x02#8 ++ 0#8 ++ (0#8 ++ v) ∧
    exec (.setBrightness v) s = .next { s with
      out1 := .holding (pair .ch1), out2 := .holding (pair .ch2)
      events := s.events ++ (if Config.params.emitOrder = .ch1First then [e₁, e₂] else [e₂, e₁]), pos := s.pos + 1 } ∧
    (s.cfg.current0 = s.cfg.current1 → pair .ch1 = pair .ch2)

/-- R116: `SET_BRIGHTNESS_CH`: its word; for a valid channel the pair of the table entry is latched and logged, the other latch untouched; for
any other number nothing changes. -/
def Obligations.SetBrightnessChEmitsOnOneChannel : Prop :=
  ∀ (s : State) (c v : Byte),
    let pair₁ := mapChannel Config.params s.cfg .ch1 (Config.params.gamma v)
    let pair₂ := mapChannel Config.params s.cfg .ch2 (Config.params.gamma v)
    encode (.setBrightnessCh c v) = 0x03#8 ++ c ++ (0#8 ++ v) ∧
    exec (.setBrightnessCh 1 v) s = .next { s with
      out1 := .holding pair₁, events := s.events ++ [.emit .ch1 pair₁.pwm pair₁.alevel], pos := s.pos + 1 } ∧
    exec (.setBrightnessCh 2 v) s = .next { s with
      out2 := .holding pair₂, events := s.events ++ [.emit .ch2 pair₂.pwm pair₂.alevel], pos := s.pos + 1 } ∧
    (c ≠ 1 → c ≠ 2 → exec (.setBrightnessCh c v) s = .next { s with pos := s.pos + 1 })

/-- R117: `SET_TUNABLE`: its word; channel 1 maps the warm part and channel 2 the cool part, logged in the order of the parameter; nothing
else changes; temperature 0 and 255 turn one channel off, and a zero table entry both; the rule's example. -/
def Obligations.SetTunableSplitsTheBrightness : Prop :=
  (∀ (s : State) (b t : Byte),
    let lin := Config.params.gamma b
    let cool := t.toNat * lin.toNat / 255
    let pair₁ := mapChannel Config.params s.cfg .ch1 (BitVec.ofNat 16 (lin.toNat - cool))
    let pair₂ := mapChannel Config.params s.cfg .ch2 (BitVec.ofNat 16 cool)
    let e₁ := Event.emit .ch1 pair₁.pwm pair₁.alevel
    let e₂ := Event.emit .ch2 pair₂.pwm pair₂.alevel
    encode (.setTunable b t) = 0x04#8 ++ 0#8 ++ (b ++ t) ∧ cool ≤ lin.toNat ∧ t.toNat * lin.toNat < 2 ^ 24 ∧
    exec (.setTunable b t) s = .next { s with
      out1 := .holding pair₁, out2 := .holding pair₂
      events := s.events ++ (if Config.params.emitOrder = .ch1First then [e₁, e₂] else [e₂, e₁]), pos := s.pos + 1 } ∧
    (t = 0 → pair₂.pwm = 0) ∧ (t = 255 → pair₁.pwm = 0)) ∧
  (∀ (P : Config.Params) (cfg : Cfg) (c : Channel) (b t : Byte), P.gamma b = 0 →
    (mapChannel P cfg c (tunableRequest (brightnessToLinear P b) t c)).pwm = 0) ∧
  coolPart 40000 64 = 10039 ∧ warmPart 40000 64 = 29961

/-- R118 (an inference the spec marks as its own): whatever the temperature, the warm and the cool request add up to the table entry of the brightness. -/
def Obligations.TunablePartsAddUp : Prop :=
  ∀ (P : Config.Params) (b t : Byte),
    (tunableRequest (brightnessToLinear P b) t .ch1).toNat + (tunableRequest (brightnessToLinear P b) t .ch2).toNat =
      (P.gamma b).toNat

/-- R119: `SET_CURRENT`: its word; it writes both ceilings, at any value, and nothing else; with both at 0 every request turns its channel
off. -/
def Obligations.SetCurrentWritesBothCeilings : Prop :=
  ∀ (s : State) (v : Word),
    encode (.setCurrent v) = 0x05#8 ++ 0#8 ++ v ∧
    exec (.setCurrent v) s = .next { s with cfg := { s.cfg with current0 := v, current1 := v }, pos := s.pos + 1 } ∧
    ∀ (P : Config.Params) (c : Channel) (request : Word),
      (mapChannel P { s.cfg with current0 := 0, current1 := 0 } c request).pwm = 0

/-- R120: `SET_CURRENT_CH`: its word; it writes the ceiling of a valid channel and nothing else; any other number, 0 among them, writes
nothing. -/
def Obligations.SetCurrentChWritesOneCeiling : Prop :=
  ∀ (s : State) (c : Byte) (v : Word),
    encode (.setCurrentCh c v) = 0x06#8 ++ c ++ v ∧
    exec (.setCurrentCh 1 v) s = .next { s with cfg := { s.cfg with current0 := v }, pos := s.pos + 1 } ∧
    exec (.setCurrentCh 2 v) s = .next { s with cfg := { s.cfg with current1 := v }, pos := s.pos + 1 } ∧
    (c ≠ 1 → c ≠ 2 → exec (.setCurrentCh c v) s = .next { s with pos := s.pos + 1 })

/-- R121: `SET_POWER`: its word; on writes the rail and one rail event and nothing else; off first maps `GAMMA[0]` on both channels, in the
order of the parameter, then de-energises the rail, and nothing else; the duties are 0 when `GAMMA[0] * CURRENT < 65535`. -/
def Obligations.SetPowerSwitchesTheRail : Prop :=
  ∀ s : State,
    let pair := fun c => mapChannel Config.params s.cfg c (Config.params.gamma 0)
    let e₁ := Event.emit .ch1 (pair .ch1).pwm (pair .ch1).alevel
    let e₂ := Event.emit .ch2 (pair .ch2).pwm (pair .ch2).alevel
    encode (.setPower false) = 0x07#8 ++ 0#8 ++ 0#16 ∧ encode (.setPower true) = 0x07#8 ++ 0#8 ++ 1#16 ∧
    exec (.setPower true) s =
      .next { s with railOn := .holding true, events := s.events ++ [.rail true], pos := s.pos + 1 } ∧
    exec (.setPower false) s = .next { s with
      out1 := .holding (pair .ch1), out2 := .holding (pair .ch2), railOn := .holding false
      events := s.events ++ (if Config.params.emitOrder = .ch1First then [e₁, e₂] else [e₂, e₁]) ++ [.rail false]
      pos := s.pos + 1 } ∧
    ∀ (P : Config.Params) (c : Channel), (P.gamma 0).toNat * (s.cfg.current c).toNat < 65535 →
      (mapChannel P s.cfg c (P.gamma 0)).pwm = 0

/-- R122, R123: the threshold setters: their words; each writes its register, at any value, and nothing else; a floor of 0 changes no
duty and a floor of 255 makes every non-zero duty of the PWM-only region 255. -/
def Obligations.ThresholdSettersWriteTheirRegister : Prop :=
  ∀ (s : State) (v : Word) (b : Byte),
    encode (.setAnalogMin v) = 0x08#8 ++ 0#8 ++ v ∧
    exec (.setAnalogMin v) s = .next { s with cfg := { s.cfg with analogMin := v }, pos := s.pos + 1 } ∧
    encode (.setPwmMin b) = 0x09#8 ++ 0#8 ++ (0#8 ++ b) ∧
    exec (.setPwmMin b) s = .next { s with cfg := { s.cfg with pwmMin := b }, pos := s.pos + 1 } ∧
    ∀ pwm0 : Byte, floorDuty { s.cfg with pwmMin := 0 } pwm0 = pwm0 ∧
      (pwm0 ≠ 0 → floorDuty { s.cfg with pwmMin := 255 } pwm0 = 255)

/-- R124: two machines that differ in the emission order alone end a two-channel request with the same state but for the log, whose new
events are the same in the opposite order or the same order; the loop of R115 gives what the model computes. -/
def Obligations.EmissionOrderTouchesOnlyTheLog : Prop :=
  ∀ (P Q : Config.Params) (s : State) (request : Channel → Word),
    (mapBoth P s request = (emissionOrder P.emitOrder).foldl (fun t c => mapAndEmit P t c (request c)) s) ∧
    (P.gamma = Q.gamma → P.linX = Q.linX → P.linY = Q.linY →
      { mapBoth P s request with events := [] } = { mapBoth Q s request with events := [] } ∧
      ∃ new new' : List Event, (mapBoth P s request).events = s.events ++ new ∧
        (mapBoth Q s request).events = s.events ++ new' ∧ (new' = new ∨ new' = new.reverse))

/-- R125 (an inference the spec marks as its own): a command logs the emission of a channel pair exactly when it is an emitting command. -/
def Obligations.OnlyEmittingCommandsEmit : Prop :=
  ∀ (i : Instr) (s : State),
    ∃ (t : State) (new : List Event), exec i s = .next t ∧ t.events = s.events ++ new ∧
      (new.any Event.isEmission = emitsPair i)

/-! ## Whole-machine rules -/

/-- R11, R34, R35, R140: every command, whatever the state and the operands, completes; it counts itself, leaves `REFUSED` and the host's
later words (the model's own field, log entry 2) alone, and only appends to the log. -/
def Obligations.EveryCommandCompletes : Prop :=
  ∀ (i : Instr) (s : State), ∃ t : State, exec i s = .next t ∧ t.pos = s.pos + 1 ∧ t.refused = s.refused ∧ t.input = s.input ∧
    s.events <+: t.events

/-- R35 (an inference the spec marks as its own): the frame of every command: each configuration register is written only by its setters,
`RESULT` only by the queries, `RAIL_ON` only by `SET_POWER`, the latches only by the emitting commands, the log only by these and
`SET_POWER`, and `REFUSED` and the host's later words (the model's own field, log entry 2) by none. -/
def Obligations.CommandsWriteOnlyTheirState : Prop :=
  ∀ (i : Instr) (s t : State), exec i s = .next t →
    (writesCfg i = false → t.cfg = s.cfg) ∧
    ((∀ v, i ≠ .setAnalogMin v) → t.cfg.analogMin = s.cfg.analogMin) ∧
    ((∀ v, i ≠ .setPwmMin v) → t.cfg.pwmMin = s.cfg.pwmMin) ∧
    (∀ c : Channel, (∀ v, i ≠ .setCurrent v) → (∀ v, i ≠ .setCurrentCh c.number v) → t.cfg.current c = s.cfg.current c) ∧
    (writesResult i = false → t.result = s.result) ∧
    ((∀ b, i ≠ .setPower b) → t.railOn = s.railOn) ∧
    (emitsPair i = false → t.out1 = s.out1 ∧ t.out2 = s.out2) ∧
    (emitsPair i = false → (∀ b, i ≠ .setPower b) → t.events = s.events) ∧
    t.refused = s.refused ∧ t.input = s.input ∧
    (∀ (c : Channel) (v : Word) (b : Byte), i = .setChannel c.number v ∨ i = .setBrightnessCh c.number b →
      ∀ d, d ≠ c → t.out d = s.out d)

/-- R31, R32: every step keeps the latches and the rail equal to the last event of the log about them. -/
def Obligations.StepKeepsLatchesFollowingTheLog : Prop :=
  ∀ s t : State, LatchesFollowLog s → step s = .next t → LatchesFollowLog t

/-- R150: every step keeps the log within three events per counted command. -/
def Obligations.StepKeepsTheLogBounded : Prop :=
  ∀ s t : State, s.events.length ≤ 3 * s.pos → step s = .next t → t.events.length ≤ 3 * t.pos

/-- R161: both invariants hold at reset. -/
def Obligations.ResetMeetsTheInvariants : Prop :=
  LatchesFollowLog State.reset ∧ State.reset.events.length ≤ 3 * State.reset.pos ∧ Trusted State.reset

/-- R11, R142: no step clears `REFUSED`, and a step that answers a next state does not set it; the state a refusal leaves has it set and
its count unchanged. That the refusal carries that state is the model's choice (log entry 5). -/
def Obligations.RefusedIsNeverCleared : Prop :=
  ∀ s : State,
    (∀ t, step s = .next t → t.refused = s.refused) ∧
    (∀ op t, step s = .refused (.reservedOpcode op t) → t.refused = true ∧ t.pos = s.pos) ∧
    ∀ w t, step s = .refused (.nonzeroReservedField w t) → t.refused = true ∧ t.pos = s.pos

/-- R140, R142: every step ends in a next state or in one of the two refusals of the decoder; no step faults (`Fault` has no
constructor: log entry 4). That no step gives R142's third refusal, `IllFormedTable` (R84), is the model's inference: the core's table is
admitted by its type (log entry 8). -/
def Obligations.StepNeverFaults : Prop :=
  ∀ s : State,
    (∀ f, step s ≠ .fault f) ∧
    ((∃ t, step s = .next t) ∨ (∃ op t, step s = .refused (.reservedOpcode op t)) ∨
      ∃ w t, step s = .refused (.nonzeroReservedField w t))

/-- R161: the reset value of every piece of state, and the one table value the spec fixes; the four places without a value are those that
nothing has written, R34's `none` (what the model's registers then hold is free: log entry 4). -/
def Obligations.ResetState : Prop :=
  State.reset.cfg.analogMin = 1966 ∧ State.reset.cfg.pwmMin = 5 ∧ State.reset.cfg.current0 = 32768 ∧
  State.reset.cfg.current1 = 32768 ∧ Config.params.linY 6 = 61250 ∧ State.reset.out1.record = none ∧
  State.reset.out2.record = none ∧ State.reset.railOn.record = none ∧ State.reset.result.record = none ∧
  State.reset.events = [] ∧ State.reset.pos = 0 ∧ State.reset.refused = false

/-- R34, R150: the host reads what R34's record has, whenever the record has a value, and after a query, a power command and an emission
it has the value just written. That a read before the first write gives a free value, where R34 has a fault of the observation, is the
model's choice (log entry 4). -/
def Obligations.ReadsAgreeWithTheRecord : Prop :=
  (∀ (s : State) (c : Channel),
    (∀ p, (s.out c).record = some p ↔ (s.out c).written = true ∧ readOut c s = p) ∧
    (∀ b, s.railOn.record = some b ↔ s.railOn.written = true ∧ readRail s = b) ∧
    ∀ v, s.result.record = some v ↔ s.result.written = true ∧ readResult s = v) ∧
  ∀ (s : State) (c : Channel) (v : Byte) (x : Word) (on : Bool),
    (∃ t, exec (.getLinear v) s = .next t ∧ t.result.written = true ∧ readResult t = Config.params.gamma v) ∧
    (∃ t, exec (.interpLin x) s = .next t ∧ t.result.written = true ∧ readResult t = linCorr Config.params x) ∧
    (∃ t, exec (.setPower on) s = .next t ∧ t.railOn.written = true ∧ readRail t = on) ∧
    ∃ t, exec (.setChannel c.number x) s = .next t ∧ (t.out c).written = true ∧
      readOut c t = mapChannel Config.params s.cfg c x

/-- R31 to R34: in a state whose latches follow its log, `OUT[c]` and `RAIL_ON` are written exactly when the log has an event about them; a
query writes `RESULT`; no step makes a written register unwritten, and a register still unwritten after a step is as it was. That an
unwritten register holds a free value is the model's choice (log entry 4). -/
def Obligations.WrittenRegistersFollowTheLog : Prop :=
  (∀ s : State, LatchesFollowLog s →
    (∀ c, (s.out c).written = true ↔ ∃ e ∈ s.events, pairOn c e ≠ none) ∧
    (s.railOn.written = true ↔ ∃ e ∈ s.events, railOf e ≠ none)) ∧
  (∀ (i : Instr) (s t : State), writesResult i = true → exec i s = .next t → t.result.written = true) ∧
  ∀ s t : State, step s = .next t →
    (∀ c, ((s.out c).written = true → (t.out c).written = true) ∧ ((t.out c).written = false → t.out c = s.out c)) ∧
    ((s.railOn.written = true → t.railOn.written = true) ∧ (t.railOn.written = false → t.railOn = s.railOn)) ∧
    ((s.result.written = true → t.result.written = true) ∧ (t.result.written = false → t.result = s.result))

end
end

