-- ==== Sys2Proof/Laws/State.lean ====
section
/-! SUPPORT. The small lemmas of the state operations: one per field per update, and what each observation and outcome is. -/

namespace Sys2Proof.Machine

@[simp] theorem Held.holding_value {α : Type} (v : α) : (Held.holding v).value = v := rfl
@[simp] theorem Held.holding_written {α : Type} (v : α) : (Held.holding v).written = true := rfl
@[simp] theorem Held.record_holding {α : Type} (v : α) : (Held.holding v).record = some v := rfl

/-- R34's record has no value exactly while nothing has written the register. -/
@[simp] theorem Held.record_eq_none {α : Type} (h : Held α) : h.record = none ↔ h.written = false := by
  obtain ⟨v, w⟩ := h
  cases w <;> simp [Held.record]

/-- R34's record has a value exactly when something has written the register and it holds that value. -/
@[simp] theorem Held.record_eq_some {α : Type} (h : Held α) (v : α) :
    h.record = some v ↔ h.written = true ∧ h.value = v := by
  obtain ⟨u, w⟩ := h
  cases w <;> simp [Held.record]

@[simp] theorem State.setOut_cfg (s : State) (c : Channel) (pair : OutPair) : (s.setOut c pair).cfg = s.cfg := by cases c <;> rfl
@[simp] theorem State.setOut_railOn (s : State) (c : Channel) (pair : OutPair) : (s.setOut c pair).railOn = s.railOn := by cases c <;> rfl
@[simp] theorem State.setOut_result (s : State) (c : Channel) (pair : OutPair) : (s.setOut c pair).result = s.result := by cases c <;> rfl
@[simp] theorem State.setOut_events (s : State) (c : Channel) (pair : OutPair) : (s.setOut c pair).events = s.events := by cases c <;> rfl
@[simp] theorem State.setOut_pos (s : State) (c : Channel) (pair : OutPair) : (s.setOut c pair).pos = s.pos := by cases c <;> rfl
@[simp] theorem State.setOut_refused (s : State) (c : Channel) (pair : OutPair) : (s.setOut c pair).refused = s.refused := by cases c <;> rfl
@[simp] theorem State.setOut_input (s : State) (c : Channel) (pair : OutPair) : (s.setOut c pair).input = s.input := by cases c <;> rfl

@[simp] theorem State.setCfg_cfg (s : State) (cfg : Cfg) : (s.setCfg cfg).cfg = cfg := rfl
@[simp] theorem State.setCfg_out1 (s : State) (cfg : Cfg) : (s.setCfg cfg).out1 = s.out1 := rfl
@[simp] theorem State.setCfg_out2 (s : State) (cfg : Cfg) : (s.setCfg cfg).out2 = s.out2 := rfl
@[simp] theorem State.setCfg_railOn (s : State) (cfg : Cfg) : (s.setCfg cfg).railOn = s.railOn := rfl
@[simp] theorem State.setCfg_result (s : State) (cfg : Cfg) : (s.setCfg cfg).result = s.result := rfl
@[simp] theorem State.setCfg_events (s : State) (cfg : Cfg) : (s.setCfg cfg).events = s.events := rfl
@[simp] theorem State.setCfg_pos (s : State) (cfg : Cfg) : (s.setCfg cfg).pos = s.pos := rfl
@[simp] theorem State.setCfg_refused (s : State) (cfg : Cfg) : (s.setCfg cfg).refused = s.refused := rfl
@[simp] theorem State.setCfg_input (s : State) (cfg : Cfg) : (s.setCfg cfg).input = s.input := rfl

@[simp] theorem State.log_cfg (s : State) (e : Event) : (s.log e).cfg = s.cfg := rfl
@[simp] theorem State.log_out1 (s : State) (e : Event) : (s.log e).out1 = s.out1 := rfl
@[simp] theorem State.log_out2 (s : State) (e : Event) : (s.log e).out2 = s.out2 := rfl
@[simp] theorem State.log_railOn (s : State) (e : Event) : (s.log e).railOn = s.railOn := rfl
@[simp] theorem State.log_result (s : State) (e : Event) : (s.log e).result = s.result := rfl
@[simp] theorem State.log_events (s : State) (e : Event) : (s.log e).events = s.events ++ [e] := rfl
@[simp] theorem State.log_pos (s : State) (e : Event) : (s.log e).pos = s.pos := rfl
@[simp] theorem State.log_refused (s : State) (e : Event) : (s.log e).refused = s.refused := rfl
@[simp] theorem State.log_input (s : State) (e : Event) : (s.log e).input = s.input := rfl

@[simp] theorem State.emit_cfg (s : State) (c : Channel) (pair : OutPair) : (s.emit c pair).cfg = s.cfg := by cases c <;> rfl
@[simp] theorem State.emit_railOn (s : State) (c : Channel) (pair : OutPair) : (s.emit c pair).railOn = s.railOn := by cases c <;> rfl
@[simp] theorem State.emit_result (s : State) (c : Channel) (pair : OutPair) : (s.emit c pair).result = s.result := by cases c <;> rfl
@[simp] theorem State.emit_events (s : State) (c : Channel) (pair : OutPair) : (s.emit c pair).events = s.events ++ [emissionOf c pair] := by cases c <;> rfl
@[simp] theorem State.emit_pos (s : State) (c : Channel) (pair : OutPair) : (s.emit c pair).pos = s.pos := by cases c <;> rfl
@[simp] theorem State.emit_refused (s : State) (c : Channel) (pair : OutPair) : (s.emit c pair).refused = s.refused := by cases c <;> rfl
@[simp] theorem State.emit_input (s : State) (c : Channel) (pair : OutPair) : (s.emit c pair).input = s.input := by cases c <;> rfl

@[simp] theorem State.rail_cfg (s : State) (b : Bool) : (s.rail b).cfg = s.cfg := rfl
@[simp] theorem State.rail_out1 (s : State) (b : Bool) : (s.rail b).out1 = s.out1 := rfl
@[simp] theorem State.rail_out2 (s : State) (b : Bool) : (s.rail b).out2 = s.out2 := rfl
@[simp] theorem State.rail_railOn (s : State) (b : Bool) : (s.rail b).railOn = .holding b := rfl
@[simp] theorem State.rail_result (s : State) (b : Bool) : (s.rail b).result = s.result := rfl
@[simp] theorem State.rail_events (s : State) (b : Bool) : (s.rail b).events = s.events ++ [.rail b] := rfl
@[simp] theorem State.rail_pos (s : State) (b : Bool) : (s.rail b).pos = s.pos := rfl
@[simp] theorem State.rail_refused (s : State) (b : Bool) : (s.rail b).refused = s.refused := rfl
@[simp] theorem State.rail_input (s : State) (b : Bool) : (s.rail b).input = s.input := rfl

@[simp] theorem State.setResult_cfg (s : State) (v : Word) : (s.setResult v).cfg = s.cfg := rfl
@[simp] theorem State.setResult_out1 (s : State) (v : Word) : (s.setResult v).out1 = s.out1 := rfl
@[simp] theorem State.setResult_out2 (s : State) (v : Word) : (s.setResult v).out2 = s.out2 := rfl
@[simp] theorem State.setResult_railOn (s : State) (v : Word) : (s.setResult v).railOn = s.railOn := rfl
@[simp] theorem State.setResult_result (s : State) (v : Word) : (s.setResult v).result = .holding v := rfl
@[simp] theorem State.setResult_events (s : State) (v : Word) : (s.setResult v).events = s.events := rfl
@[simp] theorem State.setResult_pos (s : State) (v : Word) : (s.setResult v).pos = s.pos := rfl
@[simp] theorem State.setResult_refused (s : State) (v : Word) : (s.setResult v).refused = s.refused := rfl
@[simp] theorem State.setResult_input (s : State) (v : Word) : (s.setResult v).input = s.input := rfl

@[simp] theorem State.countCommand_cfg (s : State) : (s.countCommand).cfg = s.cfg := rfl
@[simp] theorem State.countCommand_out1 (s : State) : (s.countCommand).out1 = s.out1 := rfl
@[simp] theorem State.countCommand_out2 (s : State) : (s.countCommand).out2 = s.out2 := rfl
@[simp] theorem State.countCommand_railOn (s : State) : (s.countCommand).railOn = s.railOn := rfl
@[simp] theorem State.countCommand_result (s : State) : (s.countCommand).result = s.result := rfl
@[simp] theorem State.countCommand_events (s : State) : (s.countCommand).events = s.events := rfl
@[simp] theorem State.countCommand_pos (s : State) : (s.countCommand).pos = s.pos + 1 := rfl
@[simp] theorem State.countCommand_refused (s : State) : (s.countCommand).refused = s.refused := rfl
@[simp] theorem State.countCommand_input (s : State) : (s.countCommand).input = s.input := rfl

@[simp] theorem State.markRefused_cfg (s : State) : (s.markRefused).cfg = s.cfg := rfl
@[simp] theorem State.markRefused_out1 (s : State) : (s.markRefused).out1 = s.out1 := rfl
@[simp] theorem State.markRefused_out2 (s : State) : (s.markRefused).out2 = s.out2 := rfl
@[simp] theorem State.markRefused_railOn (s : State) : (s.markRefused).railOn = s.railOn := rfl
@[simp] theorem State.markRefused_result (s : State) : (s.markRefused).result = s.result := rfl
@[simp] theorem State.markRefused_events (s : State) : (s.markRefused).events = s.events := rfl
@[simp] theorem State.markRefused_pos (s : State) : (s.markRefused).pos = s.pos := rfl
@[simp] theorem State.markRefused_refused (s : State) : (s.markRefused).refused = true := rfl
@[simp] theorem State.markRefused_input (s : State) : (s.markRefused).input = s.input := rfl

/-- A written latch holds the pair; the other latch keeps what it held (R31). -/
@[simp] theorem State.setOut_out (s : State) (c d : Channel) (pair : OutPair) :
    (s.setOut c pair).out d = if d = c then .holding pair else s.out d := by
  cases c <;> cases d <;> rfl

/-- An emission writes the latch of its channel only (R32). -/
@[simp] theorem State.emit_out (s : State) (c d : Channel) (pair : OutPair) :
    (s.emit c pair).out d = if d = c then .holding pair else s.out d := by
  cases c <;> cases d <;> rfl

@[simp] theorem State.out_ch1 (s : State) : s.out .ch1 = s.out1 := rfl
@[simp] theorem State.out_ch2 (s : State) : s.out .ch2 = s.out2 := rfl

/-- A written ceiling reads back, and the other channel's ceiling is unchanged (R120). -/
@[simp] theorem Cfg.setCurrent_current (cfg : Cfg) (c d : Channel) (v : Word) :
    (cfg.setCurrent c v).current d = if d = c then v else cfg.current d := by
  cases c <;> cases d <;> rfl

/-- Writing a ceiling leaves the thresholds (R120). -/
@[simp] theorem Cfg.setCurrent_analogMin (cfg : Cfg) (c : Channel) (v : Word) :
    (cfg.setCurrent c v).analogMin = cfg.analogMin := by cases c <;> rfl

@[simp] theorem Cfg.setCurrent_pwmMin (cfg : Cfg) (c : Channel) (v : Word) :
    (cfg.setCurrent c v).pwmMin = cfg.pwmMin := by cases c <;> rfl

/-- A completed command answers the next state, counted, and nothing else (R11). -/
@[simp] theorem complete_eq_next (s t : State) : s.complete = .next t ↔ s.countCommand = t := by
  simp [State.complete]

/-- Taking a word takes the first one the host issued and changes nothing else (log entry 2). -/
theorem takeCommand_eq_some (s t : State) (w : CommandWord) :
    s.takeCommand = some (w, t) ↔ ∃ rest, s.input = w :: rest ∧ t = { s with input := rest } := by
  cases h : s.input <;> simp [State.takeCommand, h, eq_comm]

/-- There is no word to take exactly when the host has issued none. -/
theorem takeCommand_eq_none (s : State) : s.takeCommand = none ↔ s.input = [] := by
  cases h : s.input <;> simp [State.takeCommand, h]

/-- Refusing a word never answers a next state (R61, R62). -/
@[simp] theorem refuseWord_ne_next (s t : State) (e : DecodeError) : s.refuseWord e ≠ .next t := by
  cases e <;> simp [State.refuseWord]

/-- Refusing a word never answers a fault (R142). -/
@[simp] theorem refuseWord_ne_fault (s : State) (e : DecodeError) (f : Fault) : s.refuseWord e ≠ .fault f := by
  cases e <;> simp [State.refuseWord]

end Sys2Proof.Machine
end

