-- ==== Sys2Proof/Laws/Commands.lean ====
section
/-! SUPPORT. What each shared operation of the commands does, said once: the mapper on a channel operand, the two-channel request as the
loop of the pseudocode (43_composite_ops.md R115, R124), the parameters, and the two cases of a step. -/

namespace Sys2Proof.Machine

@[simp] theorem channelOf_number (c : Channel) : channelOf c.number = some c := by cases c <;> rfl

/-- A channel operand names a channel exactly when it is 1 or 2 (R12). -/
theorem channelOf_eq_none (c : Byte) : channelOf c = none ↔ c ≠ 1#8 ∧ c ≠ 2#8 := by
  unfold channelOf
  by_cases h₁ : c = 1#8
  · simp [h₁]
  · by_cases h₂ : c = 2#8 <;> simp [h₁, h₂]

/-- A valid channel number is the number of a channel (R12). -/
theorem channelOf_eq_some (c : Byte) (d : Channel) : channelOf c = some d ↔ c = d.number := by
  unfold channelOf
  cases d <;> simp only [Channel.number] <;> split <;> try split
  all_goals simp_all

/-- The mapper on a number that names a channel (R97). -/
theorem mapOperand_number (P : Config.Params) (s : State) (c : Channel) (v : Word) :
    mapOperand P s c.number v = s.emit c (mapChannel P s.cfg c v) := by
  simp [mapOperand, mapAndEmit]

/-- The mapper on any other number does nothing (R98). -/
theorem mapOperand_invalid (P : Config.Params) (s : State) {c : Byte} (v : Word) (h : channelOf c = none) :
    mapOperand P s c v = s := by
  simp [mapOperand, h]

/-- The two-channel request is the loop `for c in Order(EMIT_ORDER) do Map(c, request c)` of R115, R117 and R121. -/
theorem mapBoth_eq_loop (P : Config.Params) (s : State) (request : Channel → Word) :
    mapBoth P s request = (emissionOrder P.emitOrder).foldl (fun t c => mapAndEmit P t c (request c)) s := by
  cases h : P.emitOrder <;>
    simp [mapBoth, mapAndEmit, emissionOrder, h, State.emit, State.log, State.setOut]

/-- `GAMMA` is non-decreasing between any two indexes (R92, R93). -/
theorem gamma_mono (P : Config.Params) {a b : Byte} (h : a ≤ b) : P.gamma a ≤ P.gamma b := by
  obtain ⟨n, hn⟩ : ∃ n, b.toNat = a.toNat + n := Nat.exists_eq_add_of_le (BitVec.le_def.mp h)
  have key : ∀ n, a.toNat + n < 256 → P.gamma a ≤ P.gamma (BitVec.ofNat 8 (a.toNat + n)) := by
    intro n
    induction n with
    | zero => intro _; simp
    | succ n ih =>
      intro hlt
      have step := P.gamma_nondecreasing (a.toNat + n) (by omega)
      exact BitVec.le_trans (ih (by omega)) step
  have hb : BitVec.ofNat 8 (a.toNat + n) = b := by rw [← hn]; simp
  rw [← hb]
  exact key n (by have := b.isLt; omega)

/-- What a step does, said once (R11): it waits, runs the decoded command on the state without the word, or refuses the word. -/
theorem step_cases (s : State) :
    (s.input = [] ∧ step s = .next s) ∨
    (∃ w rest i, s.input = w :: rest ∧ decode w = .ok i ∧ step s = exec i { s with input := rest }) ∨
    (∃ w rest e, s.input = w :: rest ∧ decode w = .error e ∧ step s = State.refuseWord { s with input := rest } e) := by
  cases h : s.input with
  | nil => exact .inl ⟨rfl, by simp [step, State.takeCommand, h, State.wait]⟩
  | cons w rest =>
    cases hd : decode w with
    | ok i => exact .inr (.inl ⟨w, rest, i, rfl, hd, by simp [step, State.takeCommand, h, hd]⟩)
    | error e => exact .inr (.inr ⟨w, rest, e, rfl, hd, by simp [step, State.takeCommand, h, hd]⟩)

end Sys2Proof.Machine
end

