-- ==== Sys2Proof/Laws/Decode.lean ====
section
/-! SUPPORT. The fields of a command word and the word of its fields (30_encoding.md R56): the small lemmas from which facts about `decode`
and `encode` follow. -/

namespace Sys2Proof

/-- Every instruction is well-formed: its operand types are its field widths (R58). -/
theorem wellFormed_all (i : Instr) : i.wellFormed = true := by
  cases i <;>
    simp [Instr.wellFormed, Instr.toSource, Instr.mnemonic, Instr.operands, SourceCommand.wellFormed, SourceCommand.countOk,
      SourceCommand.widthsOk, Mnemonic.format, Format.operandWidths] <;>
    first | omega | (cases ‹Bool› <;> decide)

/-- The columns "OP" and "Match" of R59 agree. -/
theorem opField_matchBits (m : Mnemonic) : opField m.matchBits = m.opcode := by cases m <;> decide

theorem opField_toNat (w : CommandWord) : (opField w).toNat = w.toNat / 2 ^ 24 := by
  have := w.isLt
  simp [opField, BitVec.extractLsb'_toNat, Nat.shiftRight_eq_div_pow]
  omega

theorem chField_toNat (w : CommandWord) : (chField w).toNat = w.toNat / 2 ^ 16 % 2 ^ 8 := by
  simp [chField, BitVec.extractLsb'_toNat, Nat.shiftRight_eq_div_pow]

theorem immField_toNat (w : CommandWord) : (immField w).toNat = w.toNat % 2 ^ 16 := by
  simp [immField, BitVec.extractLsb'_toNat]

theorem immHigh_toNat (w : CommandWord) : (immHigh w).toNat = w.toNat / 2 ^ 8 % 2 ^ 8 := by
  simp [immHigh, BitVec.extractLsb'_toNat, Nat.shiftRight_eq_div_pow]

theorem immLow_toNat (w : CommandWord) : (immLow w).toNat = w.toNat % 2 ^ 8 := by
  simp [immLow, BitVec.extractLsb'_toNat]

/-- A word as the number of its fields (R56). -/
theorem commandWord_toNat (op ch : Byte) (imm : Word) :
    (commandWord op ch imm).toNat = op.toNat * 2 ^ 24 + ch.toNat * 2 ^ 16 + imm.toNat := by
  have h₁ := ch.isLt
  have h₂ := imm.isLt
  simp only [commandWord, BitVec.toNat_append]
  rw [← Nat.shiftLeft_add_eq_or_of_lt h₁, ← Nat.shiftLeft_add_eq_or_of_lt h₂, Nat.shiftLeft_eq, Nat.shiftLeft_eq]
  omega

/-- Two bytes as one 16-bit field (R57). -/
theorem bytes_toNat (a b : Byte) : (a ++ b : Word).toNat = a.toNat * 2 ^ 8 + b.toNat := by
  have := b.isLt
  simp only [BitVec.toNat_append]
  rw [← Nat.shiftLeft_add_eq_or_of_lt this, Nat.shiftLeft_eq]

/-- The field of `F_P`: one bit over fifteen zeros (R57). -/
theorem bit_toNat (s : Bool) : (0#15 ++ BitVec.ofBool s : Word).toNat = s.toNat := by
  cases s <;> rfl

@[simp] theorem opField_commandWord (op ch : Byte) (imm : Word) : opField (commandWord op ch imm) = op := by
  apply BitVec.eq_of_toNat_eq
  have := ch.isLt; have := imm.isLt
  rw [opField_toNat, commandWord_toNat]; omega

@[simp] theorem chField_commandWord (op ch : Byte) (imm : Word) : chField (commandWord op ch imm) = ch := by
  apply BitVec.eq_of_toNat_eq
  have := ch.isLt; have := imm.isLt
  rw [chField_toNat, commandWord_toNat]; omega

@[simp] theorem immField_commandWord (op ch : Byte) (imm : Word) : immField (commandWord op ch imm) = imm := by
  apply BitVec.eq_of_toNat_eq
  have := imm.isLt
  rw [immField_toNat, commandWord_toNat]; omega

@[simp] theorem immHigh_commandWord (op ch a b : Byte) : immHigh (commandWord op ch (a ++ b)) = a := by
  apply BitVec.eq_of_toNat_eq
  have := a.isLt; have := b.isLt
  rw [immHigh_toNat, commandWord_toNat, bytes_toNat]; omega

@[simp] theorem immLow_commandWord (op ch a b : Byte) : immLow (commandWord op ch (a ++ b)) = b := by
  apply BitVec.eq_of_toNat_eq
  have := b.isLt
  rw [immLow_toNat, commandWord_toNat, bytes_toNat]; omega

/-- A word is the word of its fields (R56). -/
theorem commandWord_of_fields (w : CommandWord) : commandWord (opField w) (chField w) (immField w) = w := by
  apply BitVec.eq_of_toNat_eq
  rw [commandWord_toNat, opField_toNat, chField_toNat, immField_toNat]; omega

/-- The 16-bit field is its two bytes (R57). -/
theorem immField_eq_bytes (w : CommandWord) : immField w = immHigh w ++ immLow w := by
  apply BitVec.eq_of_toNat_eq
  rw [bytes_toNat, immField_toNat, immHigh_toNat, immLow_toNat]; omega

/-- Two words meet field by field (R56). -/
theorem commandWord_and (op op' ch ch' : Byte) (imm imm' : Word) :
    commandWord op ch imm &&& commandWord op' ch' imm' = commandWord (op &&& op') (ch &&& ch') (imm &&& imm') := by
  apply BitVec.eq_of_getLsbD_eq
  intro i _
  simp only [commandWord, BitVec.getLsbD_and, BitVec.getLsbD_append]
  split <;> [skip; split] <;> simp

/-- Two words are equal exactly when their fields are (R56). -/
theorem commandWord_inj (op op' ch ch' : Byte) (imm imm' : Word) :
    commandWord op ch imm = commandWord op' ch' imm' ↔ op = op' ∧ ch = ch' ∧ imm = imm' := by
  constructor
  · intro h
    exact ⟨by simpa using congrArg opField h, by simpa using congrArg chField h, by simpa using congrArg immField h⟩
  · rintro ⟨rfl, rfl, rfl⟩; rfl

/-- Two 16-bit fields meet byte by byte (R57). -/
theorem bytes_and (a a' b b' : Byte) : (a ++ b : Word) &&& (a' ++ b' : Word) = (a &&& a') ++ (b &&& b') := by
  apply BitVec.eq_of_getLsbD_eq
  intro i _
  simp only [BitVec.getLsbD_and, BitVec.getLsbD_append]
  split <;> simp

/-- Two 16-bit fields are equal exactly when their bytes are (R57). -/
theorem bytes_inj (a a' b b' : Byte) : (a ++ b : Word) = (a' ++ b' : Word) ↔ a = a' ∧ b = b' := by
  constructor
  · intro h
    have h := congrArg BitVec.toNat h
    rw [bytes_toNat, bytes_toNat] at h
    have := b.isLt
    have := b'.isLt
    constructor <;> apply BitVec.eq_of_toNat_eq <;> omega
  · rintro ⟨rfl, rfl⟩; rfl

/-- A word with the opcode of a row decodes to a command of that row or is refused for its must-be-zero bits (R60). -/
theorem decode_defined {w : CommandWord} {m : Mnemonic} (h : opField w = m.opcode) :
    (∃ i, decode w = .ok i ∧ i.mnemonic = m) ∨ decode w = .error (.nonzeroReservedField w) := by
  unfold decode
  rw [h]
  cases m <;> simp only [Mnemonic.opcode] <;>
    first
    | exact .inl ⟨_, rfl, rfl⟩
    | (split <;> [exact .inl ⟨_, rfl, rfl⟩; exact .inr rfl])

end Sys2Proof
end

