-- ==== Sys2Proof/Laws/Mapper.lean ====
section
/-! SUPPORT. What each step of the Channel Mapper computes (42_channel_mapper.md R99–R104), in exact arithmetic: no narrowing of the mapper ever
truncates. -/

namespace Sys2Proof.Machine

/-- The scaled value is the exact quotient (R99). -/
theorem scaleToCeiling_toNat (v current : Word) :
    (scaleToCeiling v current).toNat = v.toNat * current.toNat / 65535 := by
  have hv := v.isLt
  have hc := current.isLt
  have : v.toNat * current.toNat ≤ 65535 * current.toNat := Nat.mul_le_mul_right _ (by omega)
  simp [scaleToCeiling]; omega

/-- A full request has the ceiling as its scaled value (R99, R111). -/
theorem scaleToCeiling_full (current : Word) : scaleToCeiling 65535 current = current := by
  apply BitVec.eq_of_toNat_eq
  rw [scaleToCeiling_toNat]; simp

theorem regionOf_off (cfg : Cfg) {scaled : Word} (h : scaled = 0) : regionOf cfg scaled = .off := if_pos h

theorem regionOf_pwmOnly {cfg : Cfg} {scaled : Word} (h : scaled ≠ 0) (hl : scaled < cfg.analogMin) :
    regionOf cfg scaled = .pwmOnly := by rw [regionOf, if_neg h, if_pos hl]

theorem regionOf_analog {cfg : Cfg} {scaled : Word} (h : scaled ≠ 0) (hl : ¬ scaled < cfg.analogMin) :
    regionOf cfg scaled = .analog := by rw [regionOf, if_neg h, if_neg hl]

/-- Below the threshold the computed duty is the exact quotient, at most 254 (R101). -/
theorem computedDuty_toNat {cfg : Cfg} {scaled : Word} (hl : scaled < cfg.analogMin) :
    (computedDuty cfg scaled).toNat = scaled.toNat * 255 / cfg.analogMin.toNat ∧
      scaled.toNat * 255 / cfg.analogMin.toNat ≤ 254 := by
  have h := BitVec.lt_def.mp hl
  have : scaled.toNat * 255 / cfg.analogMin.toNat < 255 := by
    rw [Nat.div_lt_iff_lt_mul (by omega)]; omega
  simp [computedDuty]; omega

/-- The emitted level is the exact difference (R104). -/
theorem emittedLevel_toNat (P : Config.Params) (pre : Word) :
    (emittedLevel P pre).toNat = 65535 - (linCorr P pre).toNat := by
  simp [emittedLevel]; omega

/-- The emitted level as the subtraction of words, which never wraps (R104). -/
theorem emittedLevel_eq_sub (P : Config.Params) (pre : Word) : emittedLevel P pre = 0xFFFF - linCorr P pre := by
  apply BitVec.eq_of_toNat_eq
  have := (linCorr P pre).isLt
  rw [emittedLevel_toNat, BitVec.toNat_sub]
  simp; omega

/-- The cool part is the exact quotient and never above the whole (R117). -/
theorem coolPart_toNat (lin : Word) (t : Byte) :
    (coolPart lin t).toNat = t.toNat * lin.toNat / 255 ∧ t.toNat * lin.toNat / 255 ≤ lin.toNat := by
  have ht := t.isLt
  have hl := lin.isLt
  have : t.toNat * lin.toNat ≤ 255 * lin.toNat := Nat.mul_le_mul_right _ (by omega)
  simp [coolPart]; omega

/-- The warm part is the exact rest (R117). -/
theorem warmPart_toNat (lin : Word) (t : Byte) : (warmPart lin t).toNat = lin.toNat - (coolPart lin t).toNat := by
  simp [warmPart]; omega

end Sys2Proof.Machine
end

