-- ==== Sys2Proof/Laws/Exec.lean ====
section
/-! SUPPORT. What a command can do to the state, said once (10_state.md R34, R35; 43_composite_ops.md R125): the events it appends, and every
field in terms of them. -/

namespace Sys2Proof.Machine

@[simp] theorem Held.after_some {α : Type} (h : Held α) (v : α) : h.after (some v) = .holding v := rfl
@[simp] theorem Held.after_none {α : Type} (h : Held α) : h.after none = h := rfl

/-- Writes change R34's record to the last value written, if there is one. -/
@[simp] theorem Held.record_after {α : Type} (h : Held α) (o : Option α) : (h.after o).record = o.or h.record := by
  cases o <;> rfl

/-- `t` is what the command `i` makes of `s` when it appends the events `new`. -/
structure Effect (i : Instr) (s t : State) (new : List Event) : Prop where
  pos : t.pos = s.pos + 1
  refused : t.refused = s.refused
  input : t.input = s.input
  events : t.events = s.events ++ new
  atMostThree : new.length ≤ 3
  duties : ∀ e ∈ new, DutyAboveFloor s.cfg.pwmMin e
  emits : new.any Event.isEmission = emitsPair i
  out1 : t.out1 = s.out1.after (new.filterMap (pairOn .ch1)).getLast?
  out2 : t.out2 = s.out2.after (new.filterMap (pairOn .ch2)).getLast?
  rail : t.railOn = s.railOn.after (new.filterMap railOf).getLast?
  quiet : emitsPair i = false → (∀ b, i ≠ .setPower b) → new = []
  cfg : writesCfg i = false → t.cfg = s.cfg
  analogMin : (∀ v, i ≠ .setAnalogMin v) → t.cfg.analogMin = s.cfg.analogMin
  pwmMin : (∀ v, i ≠ .setPwmMin v) → t.cfg.pwmMin = s.cfg.pwmMin
  current : ∀ c : Channel, (∀ v, i ≠ .setCurrent v) → (∀ v, i ≠ .setCurrentCh c.number v) →
    t.cfg.current c = s.cfg.current c
  result : writesResult i = false → t.result = s.result

/-- The duty of a scaled value is 0 or at least the floor (R108). -/
theorem dutyOf_above_floor (cfg : Cfg) (scaled : Word) : dutyOf cfg scaled = 0#8 ∨ cfg.pwmMin ≤ dutyOf cfg scaled := by
  unfold dutyOf
  split
  · exact .inl rfl
  · unfold floorDuty
    split
    · exact .inr (BitVec.le_refl _)
    · rename_i h
      by_cases z : computedDuty cfg scaled = 0
      · exact .inl z
      · exact .inr (BitVec.not_lt.mp fun q => h ⟨z, q⟩)
  · right
    have := cfg.pwmMin.isLt
    rw [BitVec.le_def]; simp; omega

/-- A silent no-op: only `POS` changes. -/
theorem effect_noop (i : Instr) (s : State) (h : emitsPair i = false) : Effect i s s.countCommand [] := by
  constructor <;> simp [h]

/-- A write of the configuration alone, of the registers the command writes. -/
theorem effect_setCfg (i : Instr) (s : State) (cfg : Cfg) (he : emitsPair i = false) (hw : writesCfg i = true)
    (analogMin : (∀ v, i ≠ .setAnalogMin v) → cfg.analogMin = s.cfg.analogMin)
    (pwmMin : (∀ v, i ≠ .setPwmMin v) → cfg.pwmMin = s.cfg.pwmMin)
    (current : ∀ c : Channel, (∀ v, i ≠ .setCurrent v) → (∀ v, i ≠ .setCurrentCh c.number v) →
      cfg.current c = s.cfg.current c) :
    Effect i s (s.setCfg cfg).countCommand [] := by
  constructor <;> first | assumption | simp [he, hw]

/-- A write of `RESULT` alone. -/
theorem effect_setResult (i : Instr) (s : State) (v : Word) (he : emitsPair i = false) (hw : writesResult i = true) :
    Effect i s (s.setResult v).countCommand [] := by
  constructor <;> simp [he, hw]

/-- One emission of the mapper. -/
theorem effect_emit (i : Instr) (s : State) (c : Channel) (v : Word) (he : emitsPair i = true) :
    Effect i s (s.emit c (mapChannel Config.params s.cfg c v)).countCommand
      [emissionOf c (mapChannel Config.params s.cfg c v)] := by
  have duty := dutyOf_above_floor s.cfg (scaleToCeiling v (s.cfg.current c))
  constructor <;>
    first
    | (cases c <;> simp [emissionOf, pairOn, State.emit, State.log, State.setOut]; done)
    | simpa [emissionOf, DutyAboveFloor, mapChannel] using duty
    | simp [emissionOf, Event.isEmission, railOf, he]

/-- The mapper on a channel operand: one emission, or a silent no-op (R97, R98). -/
theorem effect_mapOperand (i : Instr) (s : State) (c : Byte) (v : Word) (he : emitsPair i = validChannel c) :
    ∃ new, Effect i s (mapOperand Config.params s c v).countCommand new := by
  cases h : channelOf c with
  | none =>
    obtain ⟨h₁, h₂⟩ := (channelOf_eq_none c).mp h
    rw [mapOperand_invalid _ _ _ h]
    exact ⟨[], effect_noop i s (by simp [he, validChannel, h₁, h₂])⟩
  | some d =>
    obtain rfl := (channelOf_eq_some c d).mp h
    rw [mapOperand_number]
    exact ⟨_, effect_emit i s d v (by rw [he]; cases d <;> rfl)⟩

/-- Two emissions in the order of the parameter (R124). -/
theorem effect_mapBoth (i : Instr) (s : State) (request : Channel → Word) (he : emitsPair i = true) :
    Effect i s (mapBoth Config.params s request).countCommand
      ((emissionOrder Config.params.emitOrder).map fun c =>
        emissionOf c (mapChannel Config.params s.cfg c (request c))) := by
  have duty := fun c => dutyOf_above_floor s.cfg (scaleToCeiling (request c) (s.cfg.current c))
  refine ⟨rfl, rfl, rfl, rfl, ?_, ?_, ?_, ?_, ?_, ?_, fun h => ?_, fun _ => rfl, fun _ => rfl, fun _ => rfl,
    fun _ _ _ => rfl, fun _ => rfl⟩
  · cases Config.params.emitOrder <;> simp [emissionOrder]
  · cases Config.params.emitOrder <;> simpa [emissionOrder, emissionOf, DutyAboveFloor, mapChannel] using ⟨duty _, duty _⟩
  · cases Config.params.emitOrder <;> simp [emissionOrder, emissionOf, Event.isEmission, he]
  · cases Config.params.emitOrder <;> simp [emissionOrder, emissionOf, pairOn, mapBoth]
  · cases Config.params.emitOrder <;> simp [emissionOrder, emissionOf, pairOn, mapBoth]
  · cases Config.params.emitOrder <;> simp [emissionOrder, emissionOf, railOf, mapBoth, List.findSome?]
  · simp [he] at h

/-- `SET_POWER 0`: the effect of `SET_BRIGHTNESS 0`, then the rail event (R121). -/
theorem effect_powerOff (s : State) :
    ∃ new, Effect (.setPower false) s (switchPower Config.params s false).countCommand new := by
  have both := effect_mapBoth (.setPower false) s (fun _ => brightnessToLinear Config.params 0) rfl
  refine ⟨(emissionOrder Config.params.emitOrder).map (fun c =>
    emissionOf c (mapChannel Config.params s.cfg c (brightnessToLinear Config.params 0))) ++ [Event.rail false],
    rfl, rfl, rfl, by simp [switchPower, requestBrightness, mapBoth], ?_, ?_, ?_, ?_, ?_, ?_,
    fun _ h => absurd rfl (h false), fun _ => rfl, fun _ => rfl, fun _ => rfl, fun _ _ _ => rfl, fun _ => rfl⟩
  · cases Config.params.emitOrder <;> simp [emissionOrder]
  · intro e h
    rcases List.mem_append.mp h with h | h
    · exact both.duties e h
    · obtain rfl := List.mem_singleton.mp h
      trivial
  · rw [List.any_append, both.emits]; rfl
  · rw [List.filterMap_append, show [Event.rail false].filterMap (pairOn .ch1) = [] from rfl, List.append_nil]
    exact both.out1
  · rw [List.filterMap_append, show [Event.rail false].filterMap (pairOn .ch2) = [] from rfl, List.append_nil]
    exact both.out2
  · rw [List.filterMap_append, show [Event.rail false].filterMap railOf = [false] from rfl, List.getLast?_append]
    rfl

/-- `SET_POWER 1`: the rail event alone (R121). -/
theorem effect_powerOn (s : State) :
    Effect (.setPower true) s (switchPower Config.params s true).countCommand [.rail true] := by
  constructor <;> simp [switchPower, DutyAboveFloor, emitsPair, Event.isEmission, pairOn, railOf]

/-- Every command answers a next state, and its effect is of this form. -/
theorem exec_effect (i : Instr) (s : State) : ∃ t new, exec i s = .next t ∧ Effect i s t new := by
  cases i with
  | setChannel c v => exact ⟨_, _, rfl, (effect_mapOperand _ s c v rfl).choose_spec⟩
  | setBrightness v => exact ⟨_, _, rfl, effect_mapBoth _ s _ rfl⟩
  | setBrightnessCh c v => exact ⟨_, _, rfl, (effect_mapOperand _ s c _ rfl).choose_spec⟩
  | setTunable b t => exact ⟨_, _, rfl, effect_mapBoth _ s _ rfl⟩
  | setCurrent v => exact ⟨_, _, rfl, effect_setCfg _ s _ rfl rfl (fun _ => rfl) (fun _ => rfl) fun _ h => absurd rfl (h v)⟩
  | setCurrentCh c v =>
    refine ⟨_, [], rfl, ?_⟩
    cases h : channelOf c with
    | none => simpa only [setCeilingOperand, h] using effect_noop _ s rfl
    | some d =>
      obtain rfl := (channelOf_eq_some c d).mp h
      simpa only [setCeilingOperand, h] using effect_setCfg _ s _ rfl (by cases d <;> rfl) (fun _ => by cases d <;> rfl)
        (fun _ => by cases d <;> rfl) fun c _ hc => by cases c <;> cases d <;> first | rfl | exact absurd rfl (hc v)
  | setPower on =>
    cases on with
    | false => exact ⟨_, _, rfl, (effect_powerOff s).choose_spec⟩
    | true => exact ⟨_, _, rfl, effect_powerOn s⟩
  | setAnalogMin v =>
    exact ⟨_, _, rfl, effect_setCfg _ s _ rfl rfl (fun h => absurd rfl (h v)) (fun _ => rfl) fun c _ _ => by cases c <;> rfl⟩
  | setPwmMin v =>
    exact ⟨_, _, rfl, effect_setCfg _ s _ rfl rfl (fun _ => rfl) (fun h => absurd rfl (h v)) fun c _ _ => by cases c <;> rfl⟩
  | getLinear v => exact ⟨_, _, rfl, effect_setResult _ s _ rfl rfl⟩
  | interpLin x => exact ⟨_, _, rfl, effect_setResult _ s _ rfl rfl⟩

end Sys2Proof.Machine
end

