-- ==== Sys2Proof/Laws/Interpolator.lean ====
section
/-! SUPPORT. What the parts of the interpolator compute (40_interpolator.md R78–R82): the bounds of `delta`, the exact value inside a
segment, and the scan one breakpoint at a time. -/

namespace Sys2Proof.Machine

/-- `delta` never reaches `dy` inside a segment (R82). -/
theorem segmentDelta_lt {lo hi : Breakpoint} {x : Word} (hlo : lo.x < x) (hhi : x < hi.x) (hy : lo.y ≠ hi.y) :
    segmentDelta lo hi x < ((hi.y.toNat : Int) - (lo.y.toNat : Int)).natAbs := by
  have h₁ := BitVec.lt_def.mp hlo
  have h₂ := BitVec.lt_def.mp hhi
  have hy' : lo.y.toNat ≠ hi.y.toNat := fun h => hy (BitVec.eq_of_toNat_eq h)
  simp only [segmentDelta]
  generalize hd : ((hi.y.toNat : Int) - (lo.y.toNat : Int)).natAbs = dy
  have hpos : 0 < dy := by omega
  rw [Nat.div_lt_iff_lt_mul (by norm_num)]
  generalize hdx : hi.x.toNat - lo.x.toNat = dx
  generalize hr : x.toNat - lo.x.toNat = r
  calc dy * 255 / dx * r ≤ r * (dy * 255) / dx := by
        rw [Nat.mul_comm]; exact Nat.mul_div_le_mul_div_assoc _ _ _
    _ < dy * 255 := by
      rw [Nat.div_lt_iff_lt_mul (by omega), Nat.mul_comm]
      exact Nat.mul_lt_mul_of_pos_left (by omega) (by omega)

/-- On a flat segment `delta` is 0 (R82). -/
theorem segmentDelta_flat {lo hi : Breakpoint} (x : Word) (hy : lo.y = hi.y) : segmentDelta lo hi x = 0 := by
  simp [segmentDelta, hy]

/-- `delta` grows with the query (R83). -/
theorem segmentDelta_mono (lo hi : Breakpoint) {x x' : Word} (h : x ≤ x') :
    segmentDelta lo hi x ≤ segmentDelta lo hi x' := by
  have := BitVec.le_def.mp h
  exact Nat.div_le_div_right (Nat.mul_le_mul_left _ (by omega))

/-- The value inside a rising or flat segment is exact (R80). -/
theorem segmentValue_rising {lo hi : Breakpoint} {x : Word} (hlo : lo.x < x) (hhi : x < hi.x) (hy : lo.y ≤ hi.y) :
    (segmentValue lo hi x).toNat = lo.y.toNat + segmentDelta lo hi x := by
  have h := BitVec.le_def.mp hy
  have := hi.y.isLt
  rw [segmentValue, if_pos hy, BitVec.toNat_ofNat]
  by_cases e : lo.y = hi.y
  · rw [segmentDelta_flat x e]; omega
  · have := segmentDelta_lt hlo hhi e; omega

/-- The value inside a falling segment is exact, and the subtraction never goes below zero (R80, R82). -/
theorem segmentValue_falling {lo hi : Breakpoint} {x : Word} (hlo : lo.x < x) (hhi : x < hi.x) (hy : hi.y < lo.y) :
    (segmentValue lo hi x).toNat = lo.y.toNat - segmentDelta lo hi x ∧ segmentDelta lo hi x < lo.y.toNat - hi.y.toNat := by
  have h := BitVec.lt_def.mp hy
  have hne : lo.y ≠ hi.y := by intro e; rw [e] at h; omega
  have := segmentDelta_lt hlo hhi hne
  have := lo.y.isLt
  rw [segmentValue, if_neg (by rw [BitVec.le_def]; omega), BitVec.toNat_ofNat]
  omega

/-- The last breakpoint of a curve, as the last of its points. -/
theorem Curve.last_eq (c : Curve) : c.points.getLast? = some c.last := by
  rw [Curve.points, Curve.last, List.getLast?_eq_some_getLast (by simp), List.getLast_cons c.twoPoints]

/-- The first breakpoint lies below every other one (R75). -/
theorem Curve.first_lt (c : Curve) {p : Breakpoint} (h : p ∈ c.others) : c.first.x < p.x :=
  (List.pairwise_cons.mp c.increasing).1 p h

/-- Two successive breakpoints of the linearity curve make one of its six segments (R29, R80). -/
theorem segment_linCurve (P : Config.Params) (k : Fin 6) :
    Segment (linCurve P) (linPoint P k.castSucc) (linPoint P k.succ) := by
  refine ⟨(linCurve P).points.take k, (linCurve P).points.drop (k + 2), ?_⟩
  fin_cases k <;> rfl

end Sys2Proof.Machine
end

