-- ==== Sys2Proof/Laws/PerInstr.lean ====
section
/-! SUPPORT. Statements about every instruction as syntax, one lemma per constructor: the word of an instruction carries its row's opcode
and operands that fit their fields (30_encoding.md R57–R59). -/

namespace Sys2Proof.Laws.EncodingRow

/-- The opcode byte of the instruction's word is its row's (R59), and the instruction is well-formed (R58). -/
def Statement (i : Instr) : Prop := opField (encode i) = i.mnemonic.opcode ∧ i.wellFormed = true

theorem setChannel (c : Byte) (v : Word) : Statement (.setChannel c v) :=
  ⟨opField_commandWord _ _ _, wellFormed_all _⟩

theorem setBrightness (v : Byte) : Statement (.setBrightness v) :=
  ⟨opField_commandWord _ _ _, wellFormed_all _⟩

theorem setBrightnessCh (c v : Byte) : Statement (.setBrightnessCh c v) :=
  ⟨opField_commandWord _ _ _, wellFormed_all _⟩

theorem setTunable (b t : Byte) : Statement (.setTunable b t) :=
  ⟨opField_commandWord _ _ _, wellFormed_all _⟩

theorem setCurrent (v : Word) : Statement (.setCurrent v) :=
  ⟨opField_commandWord _ _ _, wellFormed_all _⟩

theorem setCurrentCh (c : Byte) (v : Word) : Statement (.setCurrentCh c v) :=
  ⟨opField_commandWord _ _ _, wellFormed_all _⟩

theorem setPower (s : Bool) : Statement (.setPower s) :=
  ⟨opField_commandWord _ _ _, wellFormed_all _⟩

theorem setAnalogMin (v : Word) : Statement (.setAnalogMin v) :=
  ⟨opField_commandWord _ _ _, wellFormed_all _⟩

theorem setPwmMin (v : Byte) : Statement (.setPwmMin v) :=
  ⟨opField_commandWord _ _ _, wellFormed_all _⟩

theorem getLinear (v : Byte) : Statement (.getLinear v) :=
  ⟨opField_commandWord _ _ _, wellFormed_all _⟩

theorem interpLin (x : Word) : Statement (.interpLin x) :=
  ⟨opField_commandWord _ _ _, wellFormed_all _⟩

end Sys2Proof.Laws.EncodingRow
end

