-- ==== Sys2Proof/Tests/Slice0.lean ====
section
/-! SUPPORT. The model's own tests. Every expected value stands in the spec (30_encoding.md R67, 95_test_vectors.md) or is computed by hand from
its rules; the analog levels are those of the table `T_ex` of 95_test_vectors.md, which is NOT the core's. At the end, one witness for the
hypotheses of each statement. -/

namespace Sys2Proof.Tests
open Sys2Proof.Machine

/-! ## Well-formedness: an ill-formed term for each check -/

theorem test_wellFormed_accepts : SourceCommand.wellFormed ⟨.setChannel, [255, 65535]⟩ = true := by decide
theorem test_wellFormed_refuses_missing_operand : SourceCommand.wellFormed ⟨.setChannel, [1]⟩ = false := by decide
theorem test_wellFormed_refuses_extra_operand : SourceCommand.wellFormed ⟨.setCurrent, [1, 2]⟩ = false := by decide
theorem test_wellFormed_refuses_wide_channel : SourceCommand.wellFormed ⟨.setChannel, [256, 0]⟩ = false := by decide
theorem test_wellFormed_refuses_wide_word : SourceCommand.wellFormed ⟨.setCurrent, [65536]⟩ = false := by decide
theorem test_wellFormed_refuses_wide_byte : SourceCommand.wellFormed ⟨.setBrightness, [256]⟩ = false := by decide
theorem test_wellFormed_refuses_wide_bit : SourceCommand.wellFormed ⟨.setPower, [2]⟩ = false := by decide
theorem test_wordWellFormed_refuses_reserved_opcode : wordWellFormed 0x0C000000#32 = false := by decide
theorem test_wordWellFormed_refuses_reserved_bit : wordWellFormed 0x02000100#32 = false := by decide

/-! ## Decoding: one word per row, written out bit by bit from the patterns of R57 with the opcodes of R59 -/

theorem test_decode_setChannel :
    decode 0b00000001000000011000000000000000#32 = .ok (.setChannel 1 32768) := by decide
theorem test_decode_setBrightness :
    decode 0b00000010000000000000000011111111#32 = .ok (.setBrightness 255) := by decide
theorem test_decode_setBrightnessCh :
    decode 0b00000011000000100000000010000000#32 = .ok (.setBrightnessCh 2 128) := by decide
theorem test_decode_setTunable :
    decode 0b00000100000000001100100001000000#32 = .ok (.setTunable 200 64) := by decide
theorem test_decode_setCurrent :
    decode 0b00000101000000001111111111111111#32 = .ok (.setCurrent 65535) := by decide
theorem test_decode_setCurrentCh :
    decode 0b00000110000000011000000000000000#32 = .ok (.setCurrentCh 1 32768) := by decide
theorem test_decode_setPower :
    decode 0b00000111000000000000000000000001#32 = .ok (.setPower true) := by decide
theorem test_decode_setAnalogMin :
    decode 0b00001000000000000000011110101110#32 = .ok (.setAnalogMin 1966) := by decide
theorem test_decode_setPwmMin :
    decode 0b00001001000000000000000000000101#32 = .ok (.setPwmMin 5) := by decide
theorem test_decode_getLinear :
    decode 0b00001010000000000000000010000000#32 = .ok (.getLinear 128) := by decide
theorem test_decode_interpLin :
    decode 0b00001011000000001111111111111111#32 = .ok (.interpLin 65535) := by decide

/-- 95_test_vectors.md §2.1, the refused words. -/
theorem test_decode_refuses :
    decode 0x02010000#32 = .error (.nonzeroReservedField 0x02010000#32) ∧
    decode 0x03020180#32 = .error (.nonzeroReservedField 0x03020180#32) ∧
    decode 0xFFFFFFFF#32 = .error (.reservedOpcode 0xFF) := by decide

theorem test_decodeTableWord : decodeTableWord 32 0x0400C840 = some (.setTunable 200 64) := by decide

/-! ## The assembler (R65) -/

theorem test_assembleLine_decimal : assembleLine "SET_CHANNEL 1, 32768" = .ok (some (.setChannel 1 32768)) := by decide
theorem test_assembleLine_hex_comment :
    assembleLine "SET_TUNABLE 0xC8, 0x40 ; tunable white" = .ok (some (.setTunable 200 64)) := by decide
theorem test_assembleLine_too_wide : assembleLine "SET_PWM_MIN 256" = .error .operandTooWide := by decide
theorem test_assembleLine_comment_only : assembleLine "  ; nothing" = .ok none := by decide

/-! ## The interpolator on the small tables of 95_test_vectors.md §2.2 -/

/-- What the contract answers, if it answers. -/
def answer (xs ys : List Word) (x : Word) : Option Word := (interpolate (List.zipWith Breakpoint.mk xs ys) x).toOption

theorem test_interp_rising : answer [0, 65535] [0, 65535] 65534 = some 65534 := by decide
theorem test_interp_falling : answer [0, 65535] [65535, 0] 65534 = some 1 := by decide
theorem test_interp_three_points :
    answer [100, 200, 300] [900, 900, 100] 0 = some 900 ∧ answer [100, 200, 300] [900, 900, 100] 150 = some 900 ∧
    answer [100, 200, 300] [900, 900, 100] 200 = some 900 ∧ answer [100, 200, 300] [900, 900, 100] 250 = some 500 ∧
    answer [100, 200, 300] [900, 900, 100] 299 = some 108 ∧ answer [100, 200, 300] [900, 900, 100] 400 = some 100 := by decide
/-- The slope method and not the direct formula, which would give 15 and 6 (90_conflicts.md C1). -/
theorem test_interp_slope_method : answer [100, 200] [10, 20] 150 = some 14 ∧ answer [0, 1000] [0, 7] 999 = some 3 := by decide
theorem test_interp_two_slopes :
    answer [1000, 3000, 7000] [50, 10000, 10050] 1001 = some 54 ∧ answer [1000, 3000, 7000] [50, 10000, 10050] 2999 = some 9990 ∧
    answer [1000, 3000, 7000] [50, 10000, 10050] 6999 = some 10047 := by decide
theorem test_interp_refuses_one_point : interpolate [⟨5, 7⟩] 5 = .error .illFormedTable := by decide
theorem test_interp_refuses_repeated_x : interpolate [⟨0, 0⟩, ⟨10, 5⟩, ⟨10, 9⟩] 3 = .error .illFormedTable := by decide

/-! ## The mapper and the composites under `T_ex` and the reset configuration (95_test_vectors.md §2.3 to §2.7) -/

/-- `T_ex` of 95_test_vectors.md, with `GAMMA[0] = 0` and `GAMMA[200] = 40000` as its program P3 assumes them. NOT the core's tables. -/
def exampleParams (order : Config.EmitOrder) : Config.Params where
  gamma b := if b.toNat < 200 then 0 else 40000
  gamma_nondecreasing i hi := by
    by_cases h : i + 1 < 200
    · simp [Nat.mod_eq_of_lt (show i + 1 < 256 by omega), h, show i % 256 < 200 by omega]
    · simp only [BitVec.toNat_ofNat, Nat.mod_eq_of_lt (show i + 1 < 2 ^ 8 by omega), if_neg h]
      split <;> decide
  linX := ![0, 2000, 6000, 12000, 24000, 45000, 65535]
  linX_increasing := by decide
  linY := ![0, 1500, 5200, 11000, 23000, 44000, 61250]
  linY_last := by decide
  emitOrder := order

/-- The example tables, channel 1 first. -/
abbrev ex : Config.Params := exampleParams .ch1First

theorem test_linCorr :
    linCorr ex 1000 = 749 ∧ linCorr ex 1966 = 1472 ∧ linCorr ex 1967 = 1473 ∧ linCorr ex 3000 = 2421 ∧
    linCorr ex 16384 = 15384 ∧ linCorr ex 55000 = 52392 ∧ linCorr ex 65534 = 61232 ∧ linCorr ex 65535 = 61250 := by decide
theorem test_mapChannel_reset :
    mapChannel ex State.reset.cfg .ch1 1 = ⟨0, 64063⟩ ∧ mapChannel ex State.reset.cfg .ch1 15 = ⟨0, 64063⟩ ∧
    mapChannel ex State.reset.cfg .ch1 16 = ⟨5, 64063⟩ ∧ mapChannel ex State.reset.cfg .ch1 100 = ⟨6, 64063⟩ ∧
    mapChannel ex State.reset.cfg .ch1 3931 = ⟨254, 64063⟩ ∧ mapChannel ex State.reset.cfg .ch1 3932 = ⟨255, 64063⟩ ∧
    mapChannel ex State.reset.cfg .ch1 3934 = ⟨255, 64062⟩ ∧ mapChannel ex State.reset.cfg .ch1 32768 = ⟨255, 50151⟩ ∧
    mapChannel ex State.reset.cfg .ch1 65535 = ⟨255, 33767⟩ := by decide
theorem test_mapChannel_other_configurations :
    mapChannel ex ⟨1966, 5, 65535, 0⟩ .ch1 8 = ⟨5, 64063⟩ ∧ mapChannel ex ⟨1966, 5, 65535, 0⟩ .ch2 65535 = ⟨0, 64063⟩ ∧
    mapChannel ex ⟨0, 5, 65535, 0⟩ .ch1 1 = ⟨255, 65535⟩ ∧ mapChannel ex ⟨1966, 0, 65535, 0⟩ .ch1 8 = ⟨1, 64063⟩ ∧
    mapChannel ex ⟨1966, 255, 65535, 0⟩ .ch1 8 = ⟨255, 64063⟩ ∧ mapChannel ex ⟨65535, 5, 65535, 0⟩ .ch1 65534 = ⟨254, 4285⟩ := by decide
theorem test_tunable_split :
    coolPart 40000 64 = 10039 ∧ warmPart 40000 64 = 29961 ∧ coolPart 40000 127 = 19921 ∧ coolPart 1 254 = 0 ∧
    coolPart 65535 128 = 32896 ∧ warmPart 65535 128 = 32639 := by decide
theorem test_setTunable_events :
    (requestTunable ex State.reset 200 64).events = [.emit .ch1 255 51555, .emit .ch2 255 61253] := by decide
theorem test_setPower_off_events_other_order :
    (switchPower (exampleParams .ch2First) State.reset false).events =
      [.emit .ch2 0 64063, .emit .ch1 0 64063, .rail false] := by decide

/-! ## Steps of the core, whose tables are opaque -/

/-- The reset state with words issued by the host. -/
def issued (words : List CommandWord) : State := { State.reset with input := words }

theorem test_step_setCurrentCh :
    step (issued [0x06020064#32]) = .next { State.reset with cfg := ⟨1966, 5, 32768, 100⟩, pos := 1 } := by rfl
theorem test_step_setCurrentCh_zero : step (issued [0x06000064#32]) = .next { State.reset with pos := 1 } := by rfl
theorem test_step_setPower_on :
    step (issued [0x07000001#32]) =
      .next { State.reset with railOn := .holding true, events := [.rail true], pos := 1 } := by rfl
theorem test_step_setAnalogMin :
    step (issued [0x08000000#32]) = .next { State.reset with cfg := ⟨0, 5, 32768, 32768⟩, pos := 1 } := by rfl
theorem test_step_setPwmMin :
    step (issued [0x090000FF#32]) = .next { State.reset with cfg := ⟨1966, 255, 32768, 32768⟩, pos := 1 } := by rfl
theorem test_step_setCurrent :
    step (issued [0x05000000#32]) = .next { State.reset with cfg := ⟨1966, 5, 0, 0⟩, pos := 1 } := by rfl
/-- 95_test_vectors.md P4: the refused word sets `REFUSED` and changes nothing else. -/
theorem test_step_refused_word :
    step (issued [0x02000100#32]) = .refused (.nonzeroReservedField 0x02000100#32 { State.reset with refused := true }) := by
  rfl
theorem test_step_waits : step State.reset = .next State.reset := by rfl
theorem test_step_first_instruction :
    step (State.reset.withFetchWord 32 0x0400C840) = exec (.setTunable 200 64) State.reset := by rfl

/-! ## Witnesses: the hypotheses of each statement can be met, at the ends of their ranges -/

theorem witness_DecodedWordIsItsEncoding : decode 0x0500FFFF#32 = .ok (.setCurrent 65535) := by decide
theorem witness_WordDecodesExactlyWhenItsRowMatches :
    (0x07000001#32 &&& Mnemonic.setPower.mask) = Mnemonic.setPower.matchBits := by decide
theorem witness_ReservedOpcodeIsRefused :
    (issued [0x00000000#32]).input = [0x00000000#32] ∧ opField 0x00000000#32 = 0x00 ∧ (0x0C : Byte) ≤ opField 0x0C000000#32 ∧
    (0x0C : Byte) ≤ opField 0xFFFFFFFF#32 ∧
    step (issued [0xFFFFFFFF#32]) = .refused (.reservedOpcode 0xFF { State.reset with refused := true }) := by
  refine ⟨rfl, ?_, ?_, ?_, rfl⟩ <;> decide
theorem witness_NonzeroReservedFieldIsRefused :
    (issued [0x07000002#32]).input = [0x07000002#32] ∧ opField 0x07000002#32 = Mnemonic.setPower.opcode ∧
    (0x07000002#32 &&& Mnemonic.setPower.mask) ≠ Mnemonic.setPower.matchBits := by decide
theorem witness_StepRunsTheDecodedCommand :
    (issued [0x05000000#32]).input = [0x05000000#32] ∧ decode 0x05000000#32 = .ok (.setCurrent 0) := by decide
theorem witness_StepWaitsWithoutACommand : State.reset.input = [] := by decide
theorem witness_OtherChannelNumbersAreSilentNoOps :
    ((0 : Byte) ≠ 1 ∧ (0 : Byte) ≠ 2) ∧ ((3 : Byte) ≠ 1 ∧ (3 : Byte) ≠ 2) ∧ (255 : Byte) ≠ 1 ∧ (255 : Byte) ≠ 2 := by decide
theorem witness_InterpClampsOnTheRight : (linCurve ex).last.x ≤ 65535 := by decide
theorem witness_InterpClampsOnTheLeft : (0 : Word) ≤ (linCurve ex).first.x := by decide
theorem witness_InterpIsExactAtBreakpoints :
    (⟨2000, 1500⟩ : Breakpoint) ∈ (linCurve ex).points ∧ (⟨65535, 61250⟩ : Breakpoint) ∈ (linCurve ex).points := by decide

/-- A curve that rises, stays flat and falls: every case of the slope method. -/
def bentCurve : Curve where
  first := ⟨100, 10⟩
  others := [⟨200, 900⟩, ⟨300, 900⟩, ⟨400, 100⟩]
  twoPoints := by decide
  increasing := by decide

/-- A curve whose `y` never rise. -/
def fallingCurve : Curve where
  first := ⟨0, 65535⟩
  others := [⟨65535, 0⟩]
  twoPoints := by decide
  increasing := by decide

/-- A state in which something has written every place, with one more word issued. -/
def allWritten : State :=
  { issued [0x07000000#32] with out1 := .holding ⟨0, 0⟩, out2 := .holding ⟨0, 0⟩, railOn := .holding true, result := .holding 0 }

/-- Parameters whose linearity table falls from each breakpoint to the next. -/
def fallingParams : Config.Params where
  linX k := BitVec.ofNat 16 (2 * k)
  linX_increasing := by decide
  linY k := BitVec.ofNat 16 (61256 - k)
  linY_last := by decide

/-- Rising at both ends of the segment, and falling. -/
theorem witness_InterpUsesTheSlopeMethod :
    (Segment bentCurve ⟨100, 10⟩ ⟨200, 900⟩ ∧ (100 : Word) < 101 ∧ (101 : Word) < 200 ∧ (199 : Word) < 200 ∧ (10 : Word) ≤ 900) ∧
    (Segment bentCurve ⟨300, 900⟩ ⟨400, 100⟩ ∧ (300 : Word) < 399 ∧ (399 : Word) < 400 ∧ (100 : Word) < 900) :=
  ⟨⟨⟨[], [⟨300, 900⟩, ⟨400, 100⟩], rfl⟩, by decide⟩, ⟨[⟨100, 10⟩, ⟨200, 900⟩], [], rfl⟩, by decide⟩
/-- The last segment of a rising linearity table, and the first of a falling one. -/
theorem witness_InterpUsesTheSlopeMethod_linCorr :
    (ex.linX (5 : Fin 6).castSucc < 65534 ∧ (65534 : Word) < ex.linX (5 : Fin 6).succ ∧
      ex.linY (5 : Fin 6).castSucc ≤ ex.linY (5 : Fin 6).succ) ∧
    (fallingParams.linX (0 : Fin 6).castSucc < 1 ∧ (1 : Word) < fallingParams.linX (0 : Fin 6).succ ∧
      fallingParams.linY (0 : Fin 6).succ < fallingParams.linY (0 : Fin 6).castSucc) := by decide
theorem witness_InterpStaysInsideItsSegment :
    Segment bentCurve ⟨200, 900⟩ ⟨300, 900⟩ ∧ (200 : Word) < 250 ∧ (250 : Word) < 300 ∧ (10 : Word) < 900 ∧ (100 : Word) < 900 ∧
    0 < ((900 : Int) - 10).natAbs :=
  ⟨⟨[⟨100, 10⟩], [⟨400, 100⟩], rfl⟩, by decide⟩
theorem witness_InterpIsMonotone :
    YNondecreasing (linCurve ex) ∧ YNonincreasing fallingCurve ∧ (0 : Word) ≤ 65535 := by
  unfold YNondecreasing YNonincreasing; decide
theorem witness_IllFormedTablesAreRefused :
    ([⟨5, 7⟩] : List Breakpoint).length < 2 ∧
    ∃ (k : Nat) (h : k + 1 < ([⟨0, 0⟩, ⟨10, 5⟩, ⟨10, 9⟩] : List Breakpoint).length),
      ([⟨0, 0⟩, ⟨10, 5⟩, ⟨10, 9⟩] : List Breakpoint)[k + 1].x ≤ ([⟨0, 0⟩, ⟨10, 5⟩, ⟨10, 9⟩] : List Breakpoint)[k].x :=
  ⟨by decide, 1, by decide, by decide⟩
theorem witness_LinCorrIsKnownAtTheTop : Config.params.linX 6 ≤ 65535 := by
  have := (Config.params.linX 6).isLt
  rw [BitVec.le_def]; simp; omega
/-- Each corner of `INTERP_LIN`; a flat segment in the parameters Lean shows to exist. -/
theorem witness_InterpLinWritesTheCorrection :
    (0 : Word) ≤ ex.linX 0 ∧ ex.linX 6 ≤ 65535 ∧ (45000 : Word) = ex.linX 5 ∧
    ((default : Config.Params).linY (0 : Fin 6).castSucc = (default : Config.Params).linY (0 : Fin 6).succ ∧
      (default : Config.Params).linX (0 : Fin 6).castSucc ≤ 0 ∧ (0 : Word) ≤ (default : Config.Params).linX (0 : Fin 6).succ) := by
  decide
theorem witness_GetLinearIsNondecreasing : (0 : Byte) ≤ 255 := by decide
theorem witness_OffAndAnalogRegions :
    scaleToCeiling 1 (State.reset.cfg.current .ch1) = 0 ∧
    (State.reset.cfg.analogMin ≤ scaleToCeiling 3932 (State.reset.cfg.current .ch1) ∧
      scaleToCeiling 3932 (State.reset.cfg.current .ch1) ≠ 0) := by decide
/-- Below the floor, zero duty, above the floor: `v` 16, 2 and 3931 under the reset configuration. -/
theorem witness_PwmRegionDuty :
    (scaleToCeiling 16 32768 ≠ 0 ∧ scaleToCeiling 16 32768 < 1966 ∧ 0 < 8 * 255 / 1966 ∧ 8 * 255 / 1966 < 5) ∧
    (scaleToCeiling 2 32768 ≠ 0 ∧ scaleToCeiling 2 32768 < 1966 ∧ 1 * 255 / 1966 = 0) ∧
    (scaleToCeiling 3931 32768 ≠ 0 ∧ scaleToCeiling 3931 32768 < 1966 ∧ 5 ≤ 1965 * 255 / 1966) := by decide
theorem witness_NoDutyBelowTheFloor : (2 : Word) ≤ 2 ∧ (15 : Word) ≤ 15 ∧ (2 : Word) ≤ 15 := by decide
theorem witness_EveryLoggedDutyRespectsTheFloor : ∃ t, step (issued [0x0400C840#32]) = .next t := ⟨_, rfl⟩
theorem witness_ThresholdEdges :
    ((1965 : Word) + 1 = State.reset.cfg.analogMin ∧ 2 ≤ State.reset.cfg.analogMin ∧ 255 ≤ State.reset.cfg.analogMin) ∧
    ((1 : Word) + 1 = (⟨2, 5, 0, 0⟩ : Cfg).analogMin ∧ 2 ≤ (⟨2, 5, 0, 0⟩ : Cfg).analogMin) ∧
    ((1966 : Word) = State.reset.cfg.analogMin ∧ (1966 : Word) ≠ 0) := by decide
theorem witness_SmallRequestsTurnTheChannelOff :
    (1 : Word).toNat * (State.reset.cfg.current .ch1).toNat < 65535 ∧ (⟨1966, 5, 0, 0⟩ : Cfg).current .ch2 = 0 := by decide
theorem witness_UnvalidatedConfigurationIsDefined :
    ((⟨0, 0, 0, 0⟩ : Cfg).analogMin = 0 ∧ (1 : Word) ≠ 0) ∧ regionOf State.reset.cfg 1 = .pwmOnly ∧
    ((⟨65535, 5, 65534, 0⟩ : Cfg).current .ch1 < (⟨65535, 5, 65534, 0⟩ : Cfg).analogMin ∧ scaleToCeiling 65535 65534 ≠ 0) ∧
    (⟨0, 0, 0, 0⟩ : Cfg).pwmMin = 0 ∧ ((⟨0, 255, 0, 0⟩ : Cfg).pwmMin = 255 ∧ (1 : Byte) ≠ 0) := by decide
theorem witness_CeilingThenFullRequest :
    (Instr.setCurrentCh Channel.ch2.number 1000 = .setCurrentCh Channel.ch2.number 1000) ∧
    (Instr.setCurrent 1000 = .setCurrent 1000) := by decide
theorem witness_FullScaleRequest :
    (⟨1966, 5, 65535, 32768⟩ : Cfg).current .ch1 = 65535 ∧ (⟨1966, 5, 0, 65535⟩ : Cfg).current .ch2 = 65535 := by decide
theorem witness_SetChannelMapsAndEmits : State.reset.cfg = State.reset.cfg ∧ (0 : Byte) ≠ 1 ∧ (0 : Byte) ≠ 2 := by decide
theorem witness_SetBrightnessEmitsOnBothChannels : State.reset.cfg.current0 = State.reset.cfg.current1 := by decide
theorem witness_SetBrightnessChEmitsOnOneChannel : (3 : Byte) ≠ 1 ∧ (3 : Byte) ≠ 2 := by decide
theorem witness_SetTunableSplitsTheBrightness : ex.gamma 199 = 0 ∧ ex.gamma 0 = 0 := by decide
theorem witness_SetCurrentChWritesOneCeiling : (0 : Byte) ≠ 1 ∧ (0 : Byte) ≠ 2 := by decide
theorem witness_ThresholdSettersWriteTheirRegister : (1 : Byte) ≠ 0 ∧ (254 : Byte) ≠ 0 := by decide
theorem witness_SetPowerSwitchesTheRail :
    (ex.gamma 0).toNat * (State.reset.cfg.current .ch1).toNat < 65535 := by decide
theorem witness_EmissionOrderTouchesOnlyTheLog :
    (exampleParams .ch1First).gamma = (exampleParams .ch2First).gamma ∧
    (exampleParams .ch1First).linX = (exampleParams .ch2First).linX ∧
    (exampleParams .ch1First).linY = (exampleParams .ch2First).linY ∧
    (exampleParams .ch1First).emitOrder ≠ (exampleParams .ch2First).emitOrder := ⟨rfl, rfl, rfl, by decide⟩
theorem witness_CommandsWriteOnlyTheirState :
    (∃ t, exec (.setChannel Channel.ch1.number 7) State.reset = .next t) ∧
    (∃ t, exec (.setBrightnessCh Channel.ch2.number 7) State.reset = .next t) ∧
    writesCfg (.setPower false) = false ∧ writesResult (.setPower false) = false ∧ emitsPair (.getLinear 0) = false ∧
    (∀ b, Instr.getLinear 0 ≠ .setPower b) ∧ Channel.ch2 ≠ Channel.ch1 :=
  ⟨⟨_, rfl⟩, ⟨_, rfl⟩, rfl, rfl, rfl, by decide, by decide⟩
/-- A setter of one register meets the clause of every other. -/
theorem witness_CommandsWriteOnlyTheirState_registers :
    (∃ t, exec (.setPwmMin 7) State.reset = .next t) ∧ (∀ v, Instr.setPwmMin 7 ≠ .setAnalogMin v) ∧
    (∃ t, exec (.setCurrentCh Channel.ch1.number 7) State.reset = .next t) ∧
    (∀ v, Instr.setCurrentCh Channel.ch1.number 7 ≠ .setPwmMin v) ∧
    (∀ v, Instr.setCurrentCh Channel.ch1.number 7 ≠ .setCurrent v) ∧
    ∀ v, Instr.setCurrentCh Channel.ch1.number 7 ≠ .setCurrentCh Channel.ch2.number v := by
  refine ⟨⟨_, rfl⟩, fun v h => ?_, ⟨_, rfl⟩, fun v h => ?_, fun v h => ?_, fun v h => ?_⟩ <;> cases h
theorem witness_StepKeepsLatchesFollowingTheLog :
    LatchesFollowLog (issued [0x0400C840#32]) ∧ ∃ t, step (issued [0x0400C840#32]) = .next t := ⟨⟨rfl, rfl, rfl⟩, _, rfl⟩
theorem witness_StepKeepsTheLogBounded :
    (issued [0x07000000#32]).events.length ≤ 3 * (issued [0x07000000#32]).pos ∧
    ∃ t, step (issued [0x07000000#32]) = .next t := ⟨by decide, _, rfl⟩
theorem witness_RefusedIsNeverCleared :
    (∃ t, step { issued [0x05000000#32] with refused := true } = .next t) ∧
    (∃ t, step (issued [0x0C000000#32]) = .refused (.reservedOpcode 0x0C t)) ∧
    ∃ t, step (issued [0x05010000#32]) = .refused (.nonzeroReservedField 0x05010000#32 t) := ⟨⟨_, rfl⟩, ⟨_, rfl⟩, _, rfl⟩
theorem witness_StepNeverFaults :
    ∃ r, step (issued [0x0C000000#32]) = .refused r := ⟨_, rfl⟩
/-- Before the first write at reset; and a state in which every register is written, and which goes on. -/
theorem witness_WrittenRegistersFollowTheLog :
    LatchesFollowLog State.reset ∧ writesResult (.getLinear 0) = true ∧ (∃ t, exec (.getLinear 0) State.reset = .next t) ∧
    (∃ t, step allWritten = .next t) ∧ (allWritten.out .ch1).written = true ∧ allWritten.railOn.written = true ∧
    allWritten.result.written = true ∧
    ∃ t, step (issued [0x0A000000#32]) = .next t ∧ t.railOn.written = false ∧ ∀ c, (t.out c).written = false :=
  ⟨⟨rfl, rfl, rfl⟩, rfl, ⟨_, rfl⟩, ⟨_, rfl⟩, rfl, rfl, rfl, _, rfl, rfl, fun c => by cases c <;> rfl⟩

end Sys2Proof.Tests
end

/-! # Scope (00_scope.md)

What a step answers, by the word it takes: the decoded command's outcome, or the state a refusal leaves (R6, R11). -/

namespace Sys2Proof.Machine

/-! ## What a command and a refusal answer -/

/-- A command whose outcome is a next state has left `REFUSED` alone (R142). -/
theorem exec_next_refused {i : Instr} {s t : State} (h : exec i s = .next t) : t.refused = s.refused := by
  obtain ⟨t', new, ht', eff⟩ := exec_effect i s
  obtain rfl : t' = t := by simpa [ht'] using h
  exact eff.refused

/-- No command is refused: only a word can be (R11, R61, R62). -/
theorem exec_ne_refused (i : Instr) (s : State) (r : Refusal) : exec i s ≠ .refused r := by
  obtain ⟨t, new, ht, -⟩ := exec_effect i s
  simp [ht]

/-- `ReservedOpcode` is the refusal of exactly that decoder error, and it carries the marked state (R61). -/
theorem refuseWord_eq_reservedOpcode (s t : State) (e : DecodeError) (op : Byte) :
    s.refuseWord e = .refused (.reservedOpcode op t) ↔ e = .reservedOpcode op ∧ s.markRefused = t := by
  cases e <;> simp [State.refuseWord]

/-- `NonzeroReservedField` is the refusal of exactly that decoder error, and it carries the marked state (R62). -/
theorem refuseWord_eq_nonzeroReservedField (s t : State) (e : DecodeError) (w : CommandWord) :
    s.refuseWord e = .refused (.nonzeroReservedField w t) ↔ e = .nonzeroReservedField w ∧ s.markRefused = t := by
  cases e <;> simp [State.refuseWord]

/-! ## What a step answers -/

/-- On a word that decodes, a step is the command on the state without the word (R6, R48). -/
theorem step_of_decode_ok {s : State} {w : CommandWord} {rest : List CommandWord} {i : Instr}
    (hw : s.input = w :: rest) (hd : decode w = .ok i) : step s = exec i { s with input := rest } := by
  have taken := (takeCommand_eq_some s _ w).mpr ⟨rest, hw, rfl⟩
  simp [step, taken, hd]

/-- A step that answers a next state keeps `REFUSED` (R11). -/
theorem step_next_refused {s t : State} (h : step s = .next t) : t.refused = s.refused := by
  obtain ⟨-, hs⟩ | ⟨w, rest, i, -, -, hs⟩ | ⟨w, rest, e, -, -, hs⟩ := step_cases s <;> rw [hs] at h
  case inl =>
    obtain rfl : s = t := by simpa using h
    rfl
  case inr.inl => exact exec_next_refused (s := { s with input := rest }) h
  case inr.inr => exact absurd h (refuseWord_ne_next _ _ _)

/-- A step is refused only as the refusal of its word, from the state without the word (R11, R61, R62). -/
theorem step_refused {s : State} {r : Refusal} (h : step s = .refused r) :
    ∃ rest e, State.refuseWord { s with input := rest } e = .refused r := by
  obtain ⟨-, hs⟩ | ⟨w, rest, i, -, -, hs⟩ | ⟨w, rest, e, -, -, hs⟩ := step_cases s <;> rw [hs] at h
  case inl => simp at h
  case inr.inl => exact absurd h (exec_ne_refused _ _ _)
  case inr.inr => exact ⟨rest, e, h⟩

/-! ## The obligations -/

/-- Settles O7: the step lemma on a word that decodes; every command is well-formed by its operand types (R58). -/
theorem stepRunsTheDecodedCommand : Obligations.StepRunsTheDecodedCommand :=
  fun _ _ _ i hw hd => ⟨step_of_decode_ok hw hd, wellFormed_all i⟩

/-- Settles O45: the effect that every command has (`exec_effect`) holds each of its clauses. -/
theorem everyCommandCompletes : Obligations.EveryCommandCompletes := by
  intro i s
  obtain ⟨t, new, ht, eff⟩ := exec_effect i s
  exact ⟨t, ht, eff.pos, eff.refused, eff.input, new, eff.events.symm⟩

/-- Settles O50: a next state comes from waiting or from a command, which keep `REFUSED`; a refusal comes from the decoder alone and
carries the marked state. -/
theorem refusedIsNeverCleared : Obligations.RefusedIsNeverCleared := by
  intro s
  refine ⟨fun t => step_next_refused, fun op t h => ?_, fun w t h => ?_⟩
  · obtain ⟨rest, e, he⟩ := step_refused h
    obtain ⟨-, rfl⟩ := (refuseWord_eq_reservedOpcode _ _ _ _).mp he
    exact ⟨rfl, rfl⟩
  · obtain ⟨rest, e, he⟩ := step_refused h
    obtain ⟨-, rfl⟩ := (refuseWord_eq_nonzeroReservedField _ _ _ _).mp he
    exact ⟨rfl, rfl⟩

end Sys2Proof.Machine

/-! # State (10_state.md)

How the latches, the rail and `RESULT` move with the emission log (R31 to R34): a register after writes, and what one step logs. -/

namespace Sys2Proof.Machine

/-! ## A register after writes -/

/-- Writes never make a written register unwritten. -/
theorem Held.written_after {α : Type} {h : Held α} (o : Option α) (hw : h.written = true) : (h.after o).written = true := by
  cases o with
  | none => exact hw
  | some v => rfl

/-- A register that is still unwritten has not been touched. -/
theorem Held.after_of_unwritten {α : Type} {h : Held α} {o : Option α} (hw : (h.after o).written = false) : h.after o = h := by
  cases o with
  | none => rfl
  | some v => simp at hw

/-- A register whose record is the last value of the log is still so when the log grows and the new values are written. -/
theorem Held.record_after_append {α : Type} {h : Held α} {old : List Event} {f : Event → Option α}
    (hh : h.record = (old.filterMap f).getLast?) (new : List Event) :
    (h.after (new.filterMap f).getLast?).record = ((old ++ new).filterMap f).getLast? := by
  rw [Held.record_after, hh, List.filterMap_append, List.getLast?_append]

/-- A register whose record is the last value of the log is written exactly when the log has a value for it. -/
theorem Held.written_iff_exists_event {α : Type} {h : Held α} {log : List Event} {f : Event → Option α}
    (hh : h.record = (log.filterMap f).getLast?) : h.written = true ↔ ∃ e ∈ log, f e ≠ none := by
  have unwritten : h.written = false ↔ ∀ e ∈ log, f e = none := by
    rw [← Held.record_eq_none, hh, List.getLast?_eq_none_iff, List.filterMap_eq_nil_iff]
  rw [← Bool.not_eq_false, unwritten]
  push Not
  rfl

/-- The two latch clauses of `LatchesFollowLog` as one over the channel. -/
theorem LatchesFollowLog.out {s : State} (hs : LatchesFollowLog s) (c : Channel) :
    (s.out c).record = (s.events.filterMap (pairOn c)).getLast? := by
  cases c with
  | ch1 => exact hs.out1
  | ch2 => exact hs.out2

@[simp] theorem State.countCommand_out (s : State) (c : Channel) : s.countCommand.out c = s.out c := by cases c <;> rfl

/-! ## What a step logs -/

/-- `t` is what a step makes of the log and of the observable registers of `s` when it logs the events `new`: of `Effect`, what a waiting
step shares with every command, and `RESULT` written or left. -/
structure Logs (s t : State) (new : List Event) : Prop where
  events : t.events = s.events ++ new
  atMostThree : new.length ≤ 3
  duties : ∀ e ∈ new, DutyAboveFloor s.cfg.pwmMin e
  out : ∀ c, t.out c = (s.out c).after (new.filterMap (pairOn c)).getLast?
  rail : t.railOn = s.railOn.after (new.filterMap railOf).getLast?
  result : ∃ o, t.result = s.result.after o

/-- Waiting logs nothing (R162). -/
theorem logs_wait (s : State) : Logs s s [] where
  events := (List.append_nil _).symm
  atMostThree := Nat.zero_le 3
  duties := by simp
  out _ := rfl
  rail := rfl
  result := ⟨none, rfl⟩

/-- A query that completes has written `RESULT` (R33). -/
theorem exec_query_result {i : Instr} {s t : State} (hi : writesResult i = true) (h : exec i s = .next t) :
    ∃ v, t.result = .holding v := by
  cases i with
  | getLinear v =>
    obtain rfl := (complete_eq_next _ _).mp h
    exact ⟨_, rfl⟩
  | interpLin x =>
    obtain rfl := (complete_eq_next _ _).mp h
    exact ⟨_, rfl⟩
  | _ => cases hi

/-- A command logs what its effect appends. -/
theorem exec_logs {i : Instr} {s t : State} (h : exec i s = .next t) : ∃ new, Logs s t new := by
  obtain ⟨t', new, ht', eff⟩ := exec_effect i s
  obtain rfl : t' = t := by simpa [ht'] using h
  have result : ∃ o, t'.result = s.result.after o := by
    cases hi : writesResult i with
    | false => exact ⟨none, eff.result hi⟩
    | true =>
      obtain ⟨v, hv⟩ := exec_query_result hi h
      exact ⟨some v, hv⟩
  have out : ∀ c, t'.out c = (s.out c).after (new.filterMap (pairOn c)).getLast? := by
    intro c
    cases c with
    | ch1 => exact eff.out1
    | ch2 => exact eff.out2
  exact ⟨new, eff.events, eff.atMostThree, eff.duties, out, eff.rail, result⟩

/-- Taking the word leaves what `Logs` speaks of. -/
theorem Logs.of_input {s t : State} {rest : List CommandWord} {new : List Event}
    (h : Logs { s with input := rest } t new) : Logs s t new where
  events := h.events
  atMostThree := h.atMostThree
  duties := h.duties
  out c := by
    have latch := h.out c
    cases c with
    | ch1 => exact latch
    | ch2 => exact latch
  rail := h.rail
  result := h.result

/-- A step that answers a next state logs nothing, waiting, or what its command logs (R32). -/
theorem step_logs {s t : State} (h : step s = .next t) : ∃ new, Logs s t new := by
  obtain ⟨-, hs⟩ | ⟨w, rest, i, -, -, hs⟩ | ⟨w, rest, e, -, -, hs⟩ := step_cases s <;> rw [hs] at h
  case inl =>
    obtain rfl : s = t := by simpa using h
    exact ⟨[], logs_wait s⟩
  case inr.inl =>
    obtain ⟨new, logs⟩ := exec_logs h
    exact ⟨new, logs.of_input⟩
  case inr.inr => exact absurd h (refuseWord_ne_next _ _ _)

/-- Latches that follow the log still follow it when events are logged with their writes (R31, R32). -/
theorem Logs.keeps_latchesFollowLog {s t : State} {new : List Event} (h : Logs s t new) (hs : LatchesFollowLog s) :
    LatchesFollowLog t := by
  have latch : ∀ c, (t.out c).record = (t.events.filterMap (pairOn c)).getLast? := by
    intro c
    rw [h.out, h.events]
    exact Held.record_after_append (hs.out c) new
  have rail : t.railOn.record = (t.events.filterMap railOf).getLast? := by
    rw [h.rail, h.events]
    exact Held.record_after_append hs.rail new
  exact ⟨latch .ch1, latch .ch2, rail⟩

/-! ## What the host reads after a command -/

/-- `SET_POWER` leaves the rail as it was requested (R121). -/
theorem switchPower_railOn (P : Config.Params) (s : State) (on : Bool) : (switchPower P s on).railOn = .holding on := by
  cases on <;> rfl

/-- The mapper leaves the pair it computed in the latch of the channel (R97, R105). -/
theorem mapOperand_number_out (P : Config.Params) (s : State) (c : Channel) (v : Word) :
    (mapOperand P s c.number v).out c = .holding (mapChannel P s.cfg c v) := by
  rw [mapOperand_number, State.emit_out, if_pos rfl]

/-! ## The obligations -/

/-- Settles O47: a step writes each register with the last event it logs about it, so the register's record stays the last of the log. -/
theorem stepKeepsLatchesFollowingTheLog : Obligations.StepKeepsLatchesFollowingTheLog := by
  intro s t hs h
  obtain ⟨new, logs⟩ := step_logs h
  exact logs.keeps_latchesFollowLog hs

/-- Settles O27: the log clauses of what a step logs. -/
theorem everyLoggedDutyRespectsTheFloor : Obligations.EveryLoggedDutyRespectsTheFloor := by
  intro s t h
  obtain ⟨new, logs⟩ := step_logs h
  exact ⟨new, logs.events, logs.atMostThree, logs.duties⟩

/-- Settles O53: a read is the value the register holds, the record is that value once it is written, and each of the four commands leaves
its register holding what it wrote. -/
theorem readsAgreeWithTheRecord : Obligations.ReadsAgreeWithTheRecord := by
  refine ⟨fun s c => ⟨Held.record_eq_some _, Held.record_eq_some _, Held.record_eq_some _⟩, fun s c v x on => ⟨?_, ?_, ?_, ?_⟩⟩
  · exact ⟨_, rfl, rfl, rfl⟩
  · exact ⟨_, rfl, rfl, rfl⟩
  · refine ⟨_, rfl, ?_⟩
    simp [readRail, switchPower_railOn]
  · refine ⟨_, rfl, ?_⟩
    simp [readOut, mapOperand_number_out]

/-- Settles O54: in a state that follows its log a register is written exactly by its events; and a step leaves each register as it was or
writes it. -/
theorem writtenRegistersFollowTheLog : Obligations.WrittenRegistersFollowTheLog := by
  refine ⟨fun s hs => ⟨fun c => Held.written_iff_exists_event (hs.out c), Held.written_iff_exists_event hs.rail⟩,
    fun i s t hi h => ?_, fun s t h => ?_⟩
  · obtain ⟨v, hv⟩ := exec_query_result hi h
    rw [hv, Held.holding_written]
  · obtain ⟨new, logs⟩ := step_logs h
    obtain ⟨o, ho⟩ := logs.result
    refine ⟨fun c => ?_, ?_, ?_⟩
    · rw [logs.out]
      exact ⟨Held.written_after _, Held.after_of_unwritten⟩
    · rw [logs.rail]
      exact ⟨Held.written_after _, Held.after_of_unwritten⟩
    · rw [ho]
      exact ⟨Held.written_after _, Held.after_of_unwritten⟩

end Sys2Proof.Machine

/-! # Encoding (30_encoding.md)

The decoder as the opcode table has it (R57 to R62): a word with a row's opcode is that row's command when its must-be-zero bits are clear and is
refused when they are not, and every other opcode is reserved. The round trip, its converse and the two refusals follow from these equations,
and `(w & Mask) == Match` is the same test on the word. At the end, the assembler (R65): one equation per operand form. -/

namespace Sys2Proof

/-! ## The must-be-zero bits of a format -/

/-- The must-be-zero bits of the format are all 0 in the word (R57). -/
def Format.MbzClear : Format → CommandWord → Prop
  | .cv, _ => True
  | .cb, w => immHigh w = 0
  | .v16, w => chField w = 0
  | .v8, w => chField w = 0 ∧ immHigh w = 0
  | .bc, w => chField w = 0
  | .p, w => chField w = 0 ∧ w.extractLsb' 1 15 = 0

/-- The 16-bit field is its upper fifteen bits and the operand bit of `F_P` (R57). -/
theorem immField_eq_bit (w : CommandWord) : immField w = w.extractLsb' 1 15 ++ BitVec.ofBool (w.getLsbD 0) := by
  have bit : w.extractLsb' 0 1 = BitVec.ofBool (w.getLsbD 0) := by
    ext i hi
    obtain rfl : i = 0 := by omega
    simp
  rw [← bit]
  exact (BitVec.extractLsb'_append_extractLsb'_eq_extractLsb' (x := w) (start₁ := 0) (len₁ := 1) (len₂ := 15) rfl).symm

/-- Masking all of the upper part and none of the lower tests the upper part for 0. -/
theorem append_and_upperMask_eq_zero {n k : Nat} (hi : BitVec n) (lo : BitVec k) :
    (hi ++ lo) &&& (BitVec.allOnes n ++ 0#k) = 0#(n + k) ↔ hi = 0#n := by
  rw [BitVec.and_append, BitVec.and_allOnes, BitVec.and_zero]
  constructor
  · intro h
    have h := congrArg BitVec.toNat h
    rw [BitVec.toNat_append] at h
    apply BitVec.eq_of_toNat_eq
    simpa [Nat.shiftLeft_eq] using h
  · rintro rfl
    exact BitVec.zero_append_zero

/-- The mask `0xFF00` tests `IMM[15:8]` (R57). -/
theorem immField_and_highMask (w : CommandWord) : immField w &&& 0xFF00#16 = 0#16 ↔ immHigh w = 0 := by
  rw [immField_eq_bytes]
  exact append_and_upperMask_eq_zero (immHigh w) (immLow w)

/-- The mask `0xFFFE` tests every bit of the field but the operand bit of `F_P` (R57). -/
theorem immField_and_bitMask (w : CommandWord) : immField w &&& 0xFFFE#16 = 0#16 ↔ w.extractLsb' 1 15 = 0 := by
  rw [immField_eq_bit]
  exact append_and_upperMask_eq_zero (w.extractLsb' 1 15) (BitVec.ofBool (w.getLsbD 0))

/-- The must-be-zero bits of `CH` in the column "Mask" of R59 (R57). -/
def Format.chMask : Format → Byte
  | .cv | .cb => 0x00#8
  | .v16 | .v8 | .bc | .p => 0xFF#8

/-- The must-be-zero bits of `IMM` in the column "Mask" of R59 (R57). -/
def Format.immMask : Format → Word
  | .cv | .v16 | .bc => 0x0000#16
  | .cb | .v8 => 0xFF00#16
  | .p => 0xFFFE#16

theorem mask_eq_commandWord (m : Mnemonic) : m.mask = commandWord 0xFF#8 m.format.chMask m.format.immMask := by
  cases m <;> rfl

theorem matchBits_eq_commandWord (m : Mnemonic) : m.matchBits = commandWord m.opcode 0#8 0#16 := by
  cases m <;> rfl

/-- The two masks of a format test exactly its must-be-zero bits (R57). -/
theorem mbzClear_iff_masks (f : Format) (w : CommandWord) :
    f.MbzClear w ↔ chField w &&& f.chMask = 0#8 ∧ immField w &&& f.immMask = 0#16 := by
  have all : ∀ b : Byte, b &&& 0xFF#8 = b := fun _ => BitVec.and_allOnes
  cases f <;>
    simp [Format.MbzClear, Format.chMask, Format.immMask, all, immField_and_highMask, immField_and_bitMask]

/-- A word matches a row exactly when it has the row's opcode and the must-be-zero bits of the row's format are 0 (R57, R59). -/
theorem and_mask_eq_matchBits_iff (w : CommandWord) (m : Mnemonic) :
    (w &&& m.mask) = m.matchBits ↔ opField w = m.opcode ∧ m.format.MbzClear w := by
  have all : opField w &&& 0xFF#8 = opField w := BitVec.and_allOnes
  calc (w &&& m.mask) = m.matchBits
      ↔ commandWord (opField w) (chField w) (immField w) &&& commandWord 0xFF#8 m.format.chMask m.format.immMask =
          commandWord m.opcode 0#8 0#16 := by
        rw [commandWord_of_fields, mask_eq_commandWord, matchBits_eq_commandWord]
    _ ↔ opField w = m.opcode ∧ m.format.MbzClear w := by
        rw [commandWord_and, commandWord_inj, all, mbzClear_iff_masks]

/-! ## The decoder, row by row -/

/-- The command of a row with the operands a word holds (R57, R58). -/
def Mnemonic.command : Mnemonic → CommandWord → Instr
  | .setChannel, w => .setChannel (chField w) (immField w)
  | .setBrightness, w => .setBrightness (immLow w)
  | .setBrightnessCh, w => .setBrightnessCh (chField w) (immLow w)
  | .setTunable, w => .setTunable (immHigh w) (immLow w)
  | .setCurrent, w => .setCurrent (immField w)
  | .setCurrentCh, w => .setCurrentCh (chField w) (immField w)
  | .setPower, w => .setPower (w.getLsbD 0)
  | .setAnalogMin, w => .setAnalogMin (immField w)
  | .setPwmMin, w => .setPwmMin (immLow w)
  | .getLinear, w => .getLinear (immLow w)
  | .interpLin, w => .interpLin (immField w)

@[simp] theorem command_mnemonic (m : Mnemonic) (w : CommandWord) : (m.command w).mnemonic = m := by cases m <;> rfl

/-- A row's word decodes to the row's command on the word's operands (R60). -/
theorem decode_of_mbzClear {w : CommandWord} {m : Mnemonic} (hop : opField w = m.opcode) (hz : m.format.MbzClear w) :
    decode w = .ok (m.command w) := by
  unfold decode
  rw [hop]
  cases m with
  | setChannel | setCurrentCh => rfl
  | _ => exact if_pos hz

/-- A row's opcode with a must-be-zero bit set is refused (R60, R62). -/
theorem decode_of_not_mbzClear {w : CommandWord} {m : Mnemonic} (hop : opField w = m.opcode)
    (hz : ¬ m.format.MbzClear w) : decode w = .error (.nonzeroReservedField w) := by
  unfold decode
  rw [hop]
  cases m with
  | setChannel | setCurrentCh => exact absurd trivial hz
  | _ => exact if_neg hz

/-- An opcode of no row is reserved (R60, R61). -/
theorem decode_of_no_row {w : CommandWord} (h : ∀ m : Mnemonic, opField w ≠ m.opcode) :
    decode w = .error (.reservedOpcode (opField w)) := by
  have rows : ∀ m ∈ Mnemonic.all, opField w ≠ m.opcode := fun m _ => h m
  simp only [Mnemonic.all, List.forall_mem_cons, Mnemonic.opcode] at rows
  unfold decode
  split <;> simp_all

/-- A word decodes to a command exactly when it matches the command's row and holds the command's operands (R59, R60). -/
theorem decode_eq_ok_iff (w : CommandWord) (i : Instr) :
    decode w = .ok i ↔ opField w = i.mnemonic.opcode ∧ i.mnemonic.format.MbzClear w ∧ i.mnemonic.command w = i := by
  constructor
  · intro h
    by_cases row : ∃ m : Mnemonic, opField w = m.opcode
    · obtain ⟨m, hop⟩ := row
      by_cases hz : m.format.MbzClear w
      · obtain rfl : m.command w = i := by simpa [decode_of_mbzClear hop hz] using h
        simpa using ⟨hop, hz⟩
      · simp [decode_of_not_mbzClear hop hz] at h
    · simp [decode_of_no_row (not_exists.mp row)] at h
  · rintro ⟨hop, hz, hi⟩
    rw [decode_of_mbzClear hop hz, hi]

/-- A word matches a row exactly when it decodes to a command of the row (R59). -/
theorem and_mask_eq_matchBits_iff_decode (w : CommandWord) (m : Mnemonic) :
    (w &&& m.mask) = m.matchBits ↔ ∃ i, decode w = .ok i ∧ i.mnemonic = m := by
  rw [and_mask_eq_matchBits_iff]
  constructor
  · rintro ⟨hop, hz⟩
    exact ⟨m.command w, decode_of_mbzClear hop hz, command_mnemonic m w⟩
  · rintro ⟨i, hd, rfl⟩
    obtain ⟨hop, hz, -⟩ := (decode_eq_ok_iff w i).mp hd
    exact ⟨hop, hz⟩

/-- No row has a reserved opcode (R59, R61). -/
theorem ne_opcode_of_reserved {op : Byte} (h : op = 0x00 ∨ 0x0C ≤ op) (m : Mnemonic) : op ≠ m.opcode := by
  rintro rfl
  cases m <;> revert h <;> decide

/-! ## The encoder, row by row -/

theorem opField_encode (i : Instr) : opField (encode i) = i.mnemonic.opcode := by
  cases i <;> exact opField_commandWord _ _ _

/-- The encoder leaves the must-be-zero bits 0 (R57). -/
theorem mbzClear_encode (i : Instr) : i.mnemonic.format.MbzClear (encode i) := by
  cases i with
  | setPower s => cases s <;> exact ⟨rfl, rfl⟩
  | _ => simp [Instr.mnemonic, Mnemonic.format, Format.MbzClear, encode]

/-- The fields of a command's word are its operands (R57, R58). -/
theorem command_encode (i : Instr) : i.mnemonic.command (encode i) = i := by
  cases i with
  | setPower s => cases s <;> rfl
  | _ => simp [Instr.mnemonic, Mnemonic.command, encode]

/-- Encoding what a row reads from its word gives the word back (R57, R59). -/
theorem encode_command {w : CommandWord} {m : Mnemonic} (hop : opField w = m.opcode) (hz : m.format.MbzClear w) :
    encode (m.command w) = w := by
  refine Eq.trans ?_ (commandWord_of_fields w)
  rw [hop]
  cases m with
  | setChannel | setCurrentCh => rfl
  | setCurrent | setAnalogMin | interpLin =>
    have hch : chField w = 0 := hz
    rw [hch]; rfl
  | setTunable =>
    have hch : chField w = 0 := hz
    rw [hch, immField_eq_bytes]; rfl
  | setBrightnessCh =>
    have himm : immHigh w = 0 := hz
    rw [immField_eq_bytes, himm]; rfl
  | setBrightness | setPwmMin | getLinear =>
    obtain ⟨hch, himm⟩ := hz
    rw [hch, immField_eq_bytes, himm]; rfl
  | setPower =>
    obtain ⟨hch, himm⟩ := hz
    rw [hch, immField_eq_bit, himm]; rfl

end Sys2Proof

namespace Sys2Proof.Machine

/-! ## What a step answers to a refused word -/

/-- On a word the decoder refuses, a step refuses the word from the state without it (R61, R62). -/
theorem step_of_decode_error {s : State} {w : CommandWord} {rest : List CommandWord} {e : DecodeError}
    (hw : s.input = w :: rest) (hd : decode w = .error e) : step s = State.refuseWord { s with input := rest } e := by
  have taken := (takeCommand_eq_some s _ w).mpr ⟨rest, hw, rfl⟩
  simp [step, taken, hd]

/-! ## A channel number that names no channel -/

/-- The ceiling of a number that names no channel is written nowhere (R120). -/
theorem setCeilingOperand_invalid (s : State) {c : Byte} (v : Word) (h : channelOf c = none) :
    setCeilingOperand s c v = s := by
  simp [setCeilingOperand, h]

/-! ## The assembler's operand forms -/

/-- A mapped result is a success exactly when the result is. -/
theorem except_map_eq_ok {ε α β : Type} {f : α → β} {e : Except ε α} {b : β} :
    e.map f = .ok b ↔ ∃ a, e = .ok a ∧ f a = b := by
  cases e <;> simp [Except.map]

/-- One operand is read exactly from one number, its own (R65). -/
theorem oneOperand_eq_ok {width : Nat} {ops : List Nat} {x : BitVec width} :
    oneOperand width ops = .ok x ↔ ops = [x.toNat] := by
  constructor
  · intro h
    match ops with
    | [n] =>
      by_cases fits : n < 2 ^ width
      · obtain rfl : BitVec.ofNat width n = x := by simpa [oneOperand, fits] using h
        simp [Nat.mod_eq_of_lt fits]
      · simp [oneOperand, fits] at h
    | [] | _ :: _ :: _ => simp [oneOperand] at h
  · rintro rfl
    simp [oneOperand, x.isLt]

/-- Two operands are read exactly from two numbers, their own (R65). -/
theorem twoOperands_eq_ok {width₁ width₂ : Nat} {ops : List Nat} {p : BitVec width₁ × BitVec width₂} :
    twoOperands width₁ width₂ ops = .ok p ↔ ops = [p.1.toNat, p.2.toNat] := by
  constructor
  · intro h
    match ops with
    | [m, n] =>
      by_cases fits : m < 2 ^ width₁ ∧ n < 2 ^ width₂
      · have ⟨fits₁, fits₂⟩ := fits
        obtain rfl : (BitVec.ofNat width₁ m, BitVec.ofNat width₂ n) = p := by simpa [twoOperands, fits] using h
        simp [Nat.mod_eq_of_lt fits₁, Nat.mod_eq_of_lt fits₂]
      · simp [twoOperands, fits] at h
    | [] | [_] | _ :: _ :: _ :: _ => simp [twoOperands] at h
  · rintro rfl
    simp [twoOperands, p.1.isLt, p.2.isLt]

/-- A well-formed source command of a row with one operand holds the number of a field value (R58). -/
theorem operands_of_wellFormed_one {src : SourceCommand} {width : Nat}
    (hf : src.mnemonic.format.operandWidths = [width]) (h : src.wellFormed = true) :
    ∃ x : BitVec width, src.operands = [x.toNat] := by
  simp only [SourceCommand.wellFormed, SourceCommand.countOk, SourceCommand.widthsOk, hf, Bool.and_eq_true, beq_iff_eq] at h
  obtain ⟨hcount, hwidths⟩ := h
  obtain ⟨n, hn⟩ := List.length_eq_one_iff.mp hcount
  have fits : n < 2 ^ width := by simpa [hn] using hwidths
  exact ⟨BitVec.ofNat width n, by simp [hn, Nat.mod_eq_of_lt fits]⟩

/-- A well-formed source command of a row with two operands holds the numbers of two field values (R58). -/
theorem operands_of_wellFormed_two {src : SourceCommand} {width₁ width₂ : Nat}
    (hf : src.mnemonic.format.operandWidths = [width₁, width₂]) (h : src.wellFormed = true) :
    ∃ (x : BitVec width₁) (y : BitVec width₂), src.operands = [x.toNat, y.toNat] := by
  simp only [SourceCommand.wellFormed, SourceCommand.countOk, SourceCommand.widthsOk, hf, Bool.and_eq_true, beq_iff_eq] at h
  obtain ⟨hcount, hwidths⟩ := h
  obtain ⟨m, n, hmn⟩ := List.length_eq_two.mp hcount
  have ⟨fits₁, fits₂⟩ : m < 2 ^ width₁ ∧ n < 2 ^ width₂ := by simpa [hmn] using hwidths
  exact ⟨BitVec.ofNat width₁ m, BitVec.ofNat width₂ n, by simp [hmn, Nat.mod_eq_of_lt fits₁, Nat.mod_eq_of_lt fits₂]⟩

/-- The assembler reads back the source form of every command (R65). -/
theorem assemble_toSource (i : Instr) : assemble i.toSource = .ok i := by
  cases i with
  | setPower s => cases s <;> rfl
  | setChannel c v | setCurrentCh c v => exact except_map_eq_ok.mpr ⟨(c, v), twoOperands_eq_ok.mpr rfl, rfl⟩
  | setBrightnessCh c v | setTunable c v => exact except_map_eq_ok.mpr ⟨(c, v), twoOperands_eq_ok.mpr rfl, rfl⟩
  | setBrightness v | setCurrent v | setAnalogMin v | setPwmMin v | getLinear v | interpLin v =>
    exact except_map_eq_ok.mpr ⟨v, oneOperand_eq_ok.mpr rfl, rfl⟩

/-- The one bit of `SET_POWER` as its number (R57). -/
theorem toNat_getLsbD_zero (x : BitVec 1) : x.toNat = (x.getLsbD 0).toNat := by
  revert x; decide

/-- A command that assembles has been written in its source form (R65). -/
theorem eq_toSource_of_assemble {src : SourceCommand} {i : Instr} (h : assemble src = .ok i) : src = i.toSource := by
  obtain ⟨m, ops⟩ := src
  cases m with
  | setChannel | setBrightnessCh | setTunable | setCurrentCh =>
    obtain ⟨p, hp, rfl⟩ := except_map_eq_ok.mp h
    obtain rfl := twoOperands_eq_ok.mp hp
    rfl
  | setPower =>
    obtain ⟨x, hx, rfl⟩ := except_map_eq_ok.mp h
    obtain rfl := oneOperand_eq_ok.mp hx
    rw [toNat_getLsbD_zero]; rfl
  | _ =>
    obtain ⟨x, hx, rfl⟩ := except_map_eq_ok.mp h
    obtain rfl := oneOperand_eq_ok.mp hx
    rfl

/-- A well-formed source command assembles: every operand fits its field (R58, R65). -/
theorem exists_assemble_of_wellFormed {src : SourceCommand} (h : src.wellFormed = true) : ∃ i, assemble src = .ok i := by
  obtain ⟨m, ops⟩ := src
  cases m with
  | setChannel | setBrightnessCh | setTunable | setCurrentCh =>
    obtain ⟨x, y, hops⟩ := operands_of_wellFormed_two rfl h
    exact ⟨_, except_map_eq_ok.mpr ⟨(x, y), twoOperands_eq_ok.mpr hops, rfl⟩⟩
  | _ =>
    obtain ⟨x, hops⟩ := operands_of_wellFormed_one rfl h
    exact ⟨_, except_map_eq_ok.mpr ⟨x, oneOperand_eq_ok.mpr hops, rfl⟩⟩

/-! ## The obligations -/

/-- Settles O2: the word of a command has its row's opcode, clear must-be-zero bits and the command's operands. -/
theorem decodeEncodeRoundTrip : Obligations.DecodeEncodeRoundTrip := fun i =>
  (decode_eq_ok_iff (encode i) i).mpr ⟨opField_encode i, mbzClear_encode i, command_encode i⟩

/-- Settles O3: a word that decodes matches its command's row, and such a word is the encoding of the operands it holds. -/
theorem decodedWordIsItsEncoding : Obligations.DecodedWordIsItsEncoding := by
  intro w i h
  obtain ⟨hop, hz, hi⟩ := (decode_eq_ok_iff w i).mp h
  rw [← hi]
  exact encode_command hop hz

/-- Settles O4: the table's columns, row by row; the mask test is the decoder's; and a word that matched two rows would decode to two
commands. -/
theorem wordDecodesExactlyWhenItsRowMatches : Obligations.WordDecodesExactlyWhenItsRowMatches := by
  refine ⟨rfl, and_mask_eq_matchBits_iff_decode, fun w m n hm hn => ?_⟩
  obtain ⟨i, hi, rfl⟩ := (and_mask_eq_matchBits_iff_decode w m).mp hm
  obtain ⟨j, hj, rfl⟩ := (and_mask_eq_matchBits_iff_decode w n).mp hn
  obtain rfl : i = j := by simpa [hi] using hj
  rfl

/-- Settles O5: no row has the opcode, so the decoder refuses the word, and the step with it. -/
theorem reservedOpcodeIsRefused : Obligations.ReservedOpcodeIsRefused :=
  fun _ _ _ hw hop => step_of_decode_error hw (decode_of_no_row (ne_opcode_of_reserved hop))

/-- Settles O6: a row's opcode without the row's match means that a must-be-zero bit is set. -/
theorem nonzeroReservedFieldIsRefused : Obligations.NonzeroReservedFieldIsRefused := by
  intro s w rest m hw hop hne
  have hz : ¬ m.format.MbzClear w := fun hz => hne ((and_mask_eq_matchBits_iff w m).mpr ⟨hop, hz⟩)
  exact step_of_decode_error hw (decode_of_not_mbzClear hop hz)

/-- Settles O9: the words are those of the commands, and neither the mapper nor the ceiling write finds a channel. -/
theorem otherChannelNumbersAreSilentNoOps : Obligations.OtherChannelNumbersAreSilentNoOps := by
  intro s c v b h₁ h₂
  have noChannel : channelOf c = none := (channelOf_eq_none c).mpr ⟨h₁, h₂⟩
  refine ⟨⟨decodeEncodeRoundTrip (.setChannel c v), ?_⟩, ⟨decodeEncodeRoundTrip (.setBrightnessCh c b), ?_⟩,
    ⟨decodeEncodeRoundTrip (.setCurrentCh c v), ?_⟩⟩
  · exact congrArg State.complete (mapOperand_invalid _ s v noChannel)
  · exact congrArg State.complete (mapOperand_invalid _ s _ noChannel)
  · exact congrArg State.complete (setCeilingOperand_invalid s v noChannel)

/-- Settles O10: what assembles is a source form, every source form assembles, and the source forms are the well-formed ones. -/
theorem assemblerNeverTruncates : Obligations.AssemblerNeverTruncates := by
  refine ⟨fun src i => ⟨eq_toSource_of_assemble, ?_⟩, fun src => ⟨?_, exists_assemble_of_wellFormed⟩⟩
  · rintro rfl
    exact assemble_toSource i
  · rintro ⟨i, h⟩
    rw [eq_toSource_of_assemble h]
    exact wellFormed_all i

end Sys2Proof.Machine

/-! # Interpolator (40_interpolator.md)

The scan finds the breakpoint that a query equals (R79) or the segment it lies in (R78), by induction on the breakpoints still ahead. The two
clamps aside (R76, R77), `interp` is the scan, and `LinCorr` is `interp` on the seven points of the linearity table (R85). -/

namespace Sys2Proof.Machine

/-! ## The order of a curve's breakpoints -/

/-- No breakpoint lies before the first (R75). -/
theorem Curve.first_le (c : Curve) {p : Breakpoint} (hp : p ∈ c.points) : c.first.x ≤ p.x := by
  obtain rfl | hp := List.mem_cons.mp hp
  · exact BitVec.le_refl _
  · exact BitVec.le_of_lt (c.first_lt hp)

/-- No breakpoint lies after the last (R75). -/
theorem Curve.le_last (c : Curve) {p : Breakpoint} (hp : p ∈ c.points) : p.x ≤ c.last.x := by
  have ordered : c.points.Pairwise fun p q => p.x ≤ q.x := c.increasing.imp BitVec.le_of_lt
  have h := ordered.rel_getLast_of_rel_getLast_getLast hp (BitVec.le_refl _)
  rwa [show c.points.getLast _ = c.last from List.getLast_cons c.twoPoints] at h

theorem Curve.first_mem (c : Curve) : c.first ∈ c.points := List.mem_cons_self

theorem Curve.last_mem (c : Curve) : c.last ∈ c.points :=
  List.mem_cons_of_mem _ (List.getLast_mem c.twoPoints)

/-- The first breakpoint lies before the last, so the two clamps never both apply (R75). -/
theorem Curve.first_lt_last (c : Curve) : c.first.x < c.last.x :=
  c.first_lt (List.getLast_mem c.twoPoints)

/-- A curve has one breakpoint for an `x` (R75). -/
theorem Curve.eq_of_x_eq (c : Curve) {p q : Breakpoint} (hp : p ∈ c.points) (hq : q ∈ c.points) (h : p.x = q.x) : p = q := by
  have distinct : (c.points.map Breakpoint.x).Nodup := List.pairwise_map.mpr (c.increasing.imp Std.ne_of_lt)
  exact List.inj_on_of_nodup_map distinct hp hq h

/-- The ends of a segment are breakpoints of the curve. -/
theorem Segment.mem {c : Curve} {lo hi : Breakpoint} (h : Segment c lo hi) : lo ∈ c.points ∧ hi ∈ c.points :=
  ⟨h.subset List.mem_cons_self, h.subset (List.mem_cons_of_mem _ List.mem_cons_self)⟩

/-! ## The scan -/

theorem scanFrom_cons_of_lt {hi : Breakpoint} {x : Word} (lo : Breakpoint) (more : List Breakpoint) (h : hi.x < x) :
    scanFrom lo (hi :: more) x = scanFrom hi more x := if_pos h

theorem scanFrom_cons_self (lo hi : Breakpoint) (more : List Breakpoint) : scanFrom lo (hi :: more) hi.x = hi.y := by
  simp [scanFrom, BitVec.lt_irrefl]

theorem scanFrom_cons_of_gt {hi : Breakpoint} {x : Word} (lo : Breakpoint) (more : List Breakpoint) (h : x < hi.x) :
    scanFrom lo (hi :: more) x = segmentValue lo hi x := by
  rw [scanFrom, if_neg (BitVec.lt_asymm h), if_neg (Std.ne_of_lt h)]

/-- The scan stops at the breakpoint ahead that the query equals (R79). -/
theorem scanFrom_eq_y {rest : List Breakpoint} (increasing : rest.Pairwise fun p q => p.x < q.x) {p : Breakpoint}
    (hp : p ∈ rest) (lo : Breakpoint) : scanFrom lo rest p.x = p.y := by
  induction rest generalizing lo with
  | nil => simp at hp
  | cons hi more ih =>
    obtain ⟨below, increasing⟩ := List.pairwise_cons.mp increasing
    obtain rfl | hp := List.mem_cons.mp hp
    · exact scanFrom_cons_self lo p more
    · rw [scanFrom_cons_of_lt lo more (below p hp)]
      exact ih increasing hp hi

/-- The scan stops in the segment that the query lies in (R78, R80). -/
theorem scanFrom_eq_segmentValue {lo : Breakpoint} {rest : List Breakpoint}
    (increasing : (lo :: rest).Pairwise fun p q => p.x < q.x) {a b : Breakpoint} (hseg : [a, b] <:+: lo :: rest) {x : Word}
    (hlo : a.x < x) (hhi : x < b.x) : scanFrom lo rest x = segmentValue a b x := by
  induction rest generalizing lo with
  | nil => simpa using hseg.length_le
  | cons hi more ih =>
    obtain ⟨-, increasing⟩ := List.pairwise_cons.mp increasing
    obtain here | later := List.infix_cons_iff.mp hseg
    · obtain ⟨rfl, next⟩ := List.cons_prefix_cons.mp here
      obtain ⟨rfl, -⟩ := List.cons_prefix_cons.mp next
      exact scanFrom_cons_of_gt a more hhi
    · have passed : hi.x < x := by
        obtain rfl | ha := List.mem_cons.mp (later.subset List.mem_cons_self)
        · exact hlo
        · exact BitVec.lt_trans ((List.pairwise_cons.mp increasing).1 a ha) hlo
      rw [scanFrom_cons_of_lt lo more passed]
      exact ih increasing later

/-! ## The interpolator, case by case -/

/-- The right clamp (R76). -/
theorem interp_of_last_le {c : Curve} {x : Word} (h : c.last.x ≤ x) : interp c x = c.last.y := if_pos h

/-- The left clamp (R77). -/
theorem interp_of_le_first {c : Curve} {x : Word} (h : x ≤ c.first.x) : interp c x = c.first.y := by
  rw [interp, if_neg (Std.not_le.mpr (Std.lt_of_le_of_lt h c.first_lt_last)), if_pos h]

/-- Between the clamps the interpolator is the scan (R78). -/
theorem interp_between {c : Curve} {x : Word} (hfirst : c.first.x < x) (hlast : x < c.last.x) :
    interp c x = scanFrom c.first c.others x := by
  rw [interp, if_neg (Std.not_le.mpr hlast), if_neg (Std.not_le.mpr hfirst)]

/-- A breakpoint is met by a clamp, at either end, or by the scan (R79). -/
theorem interp_breakpoint {c : Curve} {p : Breakpoint} (hp : p ∈ c.points) : interp c p.x = p.y := by
  by_cases hlast : c.last.x ≤ p.x
  · obtain rfl := c.eq_of_x_eq hp c.last_mem (BitVec.le_antisymm (c.le_last hp) hlast)
    exact interp_of_last_le hlast
  by_cases hfirst : p.x ≤ c.first.x
  · obtain rfl := c.eq_of_x_eq hp c.first_mem (BitVec.le_antisymm hfirst (c.first_le hp))
    exact interp_of_le_first hfirst
  have ahead : p ∈ c.others := (List.mem_cons.mp hp).resolve_left fun h => hfirst (h ▸ BitVec.le_refl _)
  rw [interp_between (Std.not_le.mp hfirst) (Std.not_le.mp hlast)]
  exact scanFrom_eq_y (List.pairwise_cons.mp c.increasing).2 ahead c.first

/-- Strictly inside a segment the interpolator is the segment's slope method (R78, R80). -/
theorem interp_inside {c : Curve} {lo hi : Breakpoint} {x : Word} (hseg : Segment c lo hi) (hlo : lo.x < x) (hhi : x < hi.x) :
    interp c x = segmentValue lo hi x := by
  obtain ⟨lo_mem, hi_mem⟩ := hseg.mem
  rw [interp_between (Std.lt_of_le_of_lt (c.first_le lo_mem) hlo) (Std.lt_of_lt_of_le hhi (c.le_last hi_mem))]
  exact scanFrom_eq_segmentValue c.increasing hseg hlo hhi

/-- The slope method on any curve: the bounds of `dx` and `r`, and the exact value on a rising and on a falling segment (R80, R82). -/
theorem interp_slopeMethod {c : Curve} {lo hi : Breakpoint} {x : Word} (hseg : Segment c lo hi) (hlo : lo.x < x)
    (hhi : x < hi.x) :
    (lo.y ≤ hi.y → (interp c x).toNat = lo.y.toNat + segmentDelta lo hi x) ∧
    (hi.y < lo.y → (interp c x).toNat = lo.y.toNat - segmentDelta lo hi x ∧ segmentDelta lo hi x ≤ lo.y.toNat) := by
  rw [interp_inside hseg hlo hhi]
  refine ⟨segmentValue_rising hlo hhi, fun hy => ?_⟩
  obtain ⟨value, bound⟩ := segmentValue_falling hlo hhi hy
  exact ⟨value, by omega⟩

/-- A flat segment is flat up to both its ends (R82). -/
theorem interp_flat {c : Curve} {lo hi : Breakpoint} {x : Word} (hseg : Segment c lo hi) (hy : lo.y = hi.y) (hlo : lo.x ≤ x)
    (hhi : x ≤ hi.x) : interp c x = lo.y := by
  obtain ⟨lo_mem, hi_mem⟩ := hseg.mem
  by_cases atLo : x = lo.x
  · rw [atLo, interp_breakpoint lo_mem]
  by_cases atHi : x = hi.x
  · rw [atHi, interp_breakpoint hi_mem, hy]
  have hlo : lo.x < x := Std.lt_of_le_of_ne hlo (Ne.symm atLo)
  have hhi : x < hi.x := Std.lt_of_le_of_ne hhi atHi
  apply BitVec.eq_of_toNat_eq
  rw [interp_inside hseg hlo hhi, segmentValue_rising hlo hhi (hy ▸ BitVec.le_refl _), segmentDelta_flat x hy, Nat.add_zero]

/-! ## The admitted tables -/

/-- The test of R75 accepts exactly the points of a curve, and answers that curve (R84). -/
theorem curveOf_eq_some_iff {table : List Breakpoint} {c : Curve} : curveOf table = some c ↔ c.points = table := by
  obtain ⟨first, others, twoPoints, increasing⟩ := c
  constructor
  · intro h
    match table with
    | [] | [_] => simp [curveOf] at h
    | p :: q :: more =>
      by_cases admitted : (p :: q :: more).Pairwise fun a b => a.x < b.x
      · rw [curveOf, dif_pos admitted] at h
        cases h
        rfl
      · simp [curveOf, admitted] at h
  · rintro rfl
    match others with
    | q :: more => exact dif_pos increasing

/-- A curve's points are admitted: at least two, and each `x` below the next (R75). -/
theorem Curve.two_le_length (c : Curve) : 2 ≤ c.points.length :=
  Nat.succ_le_succ (List.length_pos_iff.mpr c.twoPoints)

theorem Curve.getElem_lt_succ (c : Curve) {k : Nat} (h : k + 1 < c.points.length) : c.points[k].x < c.points[k + 1].x :=
  List.pairwise_iff_getElem.mp c.increasing k (k + 1) (Nat.lt_of_succ_lt h) h k.lt_succ_self

/-! ## The linearity curve -/

/-- The linearity curve has the seven breakpoints of the table, in order (R29, R85). -/
theorem linCurve_points (P : Config.Params) : (linCurve P).points = List.ofFn (linPoint P) := rfl

theorem linPoint_mem (P : Config.Params) (k : Fin 7) : linPoint P k ∈ (linCurve P).points := by
  rw [linCurve_points]
  exact List.mem_ofFn.mpr ⟨k, rfl⟩

/-- At and below `LIN_X[0]`, `LinCorr` is `LIN_Y[0]` (R77, R87). -/
theorem linCorr_of_le_first {P : Config.Params} {x : Word} (h : x ≤ P.linX 0) : linCorr P x = P.linY 0 :=
  interp_of_le_first (c := linCurve P) h

/-- At and above `LIN_X[6]`, `LinCorr` is 61250 (R29, R86). -/
theorem linCorr_of_last_le {P : Config.Params} {x : Word} (h : P.linX 6 ≤ x) : linCorr P x = 61250 :=
  (interp_of_last_le (c := linCurve P) h).trans P.linY_last

/-- The largest query is at or above every `LIN_X[6]` (R86, R87). -/
theorem linCorr_max (P : Config.Params) : linCorr P 65535 = 61250 :=
  linCorr_of_last_le (Nat.le_of_lt_succ (P.linX 6).isLt)

/-! ## The obligations -/

/-- Settles O13: a clamp or the scan meets the breakpoint. -/
theorem interpIsExactAtBreakpoints : Obligations.InterpIsExactAtBreakpoints := fun _ _ => interp_breakpoint

/-- Settles O14: the value inside a segment, on any curve and on the six segments of the linearity curve. -/
theorem interpUsesTheSlopeMethod : Obligations.InterpUsesTheSlopeMethod := by
  refine ⟨fun c lo hi x hseg hlo hhi => ?_, fun P => ⟨linCurve_points P, fun k x hlo hhi => ?_⟩⟩
  · have below := BitVec.lt_def.mp hlo
    have above := BitVec.lt_def.mp hhi
    exact ⟨by omega, by omega, by omega, interp_slopeMethod hseg hlo hhi⟩
  · exact interp_slopeMethod (segment_linCurve P k) hlo hhi

/-- Settles O17: a table that is not refused is the points of a curve, which is well-formed; and the points of a curve give it back. -/
theorem illFormedTablesAreRefused : Obligations.IllFormedTablesAreRefused := by
  refine ⟨fun table x illFormed => ?_, fun c x => ?_⟩
  · cases h : curveOf table with
    | none => simp [interpolate, h]
    | some c =>
      obtain rfl := curveOf_eq_some_iff.mp h
      obtain short | ⟨k, hk, falls⟩ := illFormed
      · exact absurd c.two_le_length (Nat.not_le.mpr short)
      · exact absurd (c.getElem_lt_succ hk) (BitVec.not_lt.mpr falls)
  · simp [interpolate, curveOf_eq_some_iff.mpr rfl]

/-- Settles O19: the command is one write of `RESULT`, and each corner of `LinCorr` is that corner of `interp` on the linearity curve. -/
theorem interpLinWritesTheCorrection : Obligations.InterpLinWritesTheCorrection := by
  refine ⟨fun s x => ⟨rfl, rfl⟩,
    fun P x => ⟨linCorr_of_le_first, linCorr_of_le_first (Nat.zero_le _), linCorr_of_last_le, ?_, ?_⟩, fun s => ?_⟩
  · rintro k rfl
    exact interp_breakpoint (linPoint_mem P k)
  · intro k flat
    exact interp_flat (segment_linCurve P k) flat
  · rw [← linCorr_max Config.params]
    rfl

/-- Settles O11: the right clamp is the first test of `interp`. -/
theorem interpClampsOnTheRight : Obligations.InterpClampsOnTheRight := fun _ _ => interp_of_last_le

end Sys2Proof.Machine

/-! # Brightness curve (41_brightness_curve.md)

`GET_LINEAR` writes one table entry to `RESULT` (R90, R91); the entries are in the order of their indexes (R92). -/

namespace Sys2Proof.Machine

/-! ## The command -/

/-- `GET_LINEAR v` completes, with entry `v` in `RESULT` and every other register kept (R90, R91). -/
theorem exec_getLinear (s : State) (v : Byte) :
    exec (.getLinear v) s = .next { s with result := .holding (Config.params.gamma v), pos := s.pos + 1 } := rfl

/-! ## The obligations -/

/-- Settles O21: each read is the entry its command wrote, and the entries are in the order of their indexes. -/
theorem getLinearIsNondecreasing : Obligations.GetLinearIsNondecreasing := by
  intro s₁ s₂ v₁ v₂ hv
  refine ⟨_, _, exec_getLinear s₁ v₁, exec_getLinear s₂ v₂, Held.holding_written _, Held.holding_written _, ?_⟩
  simpa only [readResult, Held.holding_value] using gamma_mono Config.params hv

/-- Settles O20: the word is the row `F_V8` of R59, and the next state is the one write of `RESULT`. -/
theorem getLinearWritesTheTableEntry : Obligations.GetLinearWritesTheTableEntry :=
  fun s v => ⟨rfl, exec_getLinear s v⟩

end Sys2Proof.Machine

/-! # Channel mapper: the regions and `SET_CHANNEL` (42_channel_mapper.md)

The pair of `MapChannel` in each region of R100 to R103, one equation per region, and `SET_CHANNEL` as one emission of that pair (R97, R105). -/

namespace Sys2Proof.Machine

/-! ## The pair of each region -/

section Regions

variable (P : Config.Params) {cfg : Cfg} {c : Channel} {v : Word}

/-- The off region: duty 0, the level held at the threshold (R100). -/
theorem mapChannel_off (h : scaleToCeiling v (cfg.current c) = 0) :
    mapChannel P cfg c v = ⟨0, 0xFFFF - linCorr P cfg.analogMin⟩ := by
  simp [mapChannel, dutyOf, preLevel, regionOf_off cfg h, emittedLevel_eq_sub]

/-- The PWM-only region: the computed duty with its floor, the level held at the threshold (R101, R102). -/
theorem mapChannel_pwmOnly (h : scaleToCeiling v (cfg.current c) ≠ 0) (hl : scaleToCeiling v (cfg.current c) < cfg.analogMin) :
    mapChannel P cfg c v =
      ⟨floorDuty cfg (computedDuty cfg (scaleToCeiling v (cfg.current c))), 0xFFFF - linCorr P cfg.analogMin⟩ := by
  simp [mapChannel, dutyOf, preLevel, regionOf_pwmOnly h hl, emittedLevel_eq_sub]

/-- The analog region: duty 255, the level of the scaled value (R103). -/
theorem mapChannel_analog (h : scaleToCeiling v (cfg.current c) ≠ 0) (hl : cfg.analogMin ≤ scaleToCeiling v (cfg.current c)) :
    mapChannel P cfg c v = ⟨255, 0xFFFF - linCorr P (scaleToCeiling v (cfg.current c))⟩ := by
  simp [mapChannel, dutyOf, preLevel, regionOf_analog h (BitVec.not_lt.mpr hl), emittedLevel_eq_sub]

end Regions

/-- R97's example: under the reset configuration request 100 scales to 50, whose computed duty is 6 and above the floor. -/
theorem mapChannel_reset_100 (P : Config.Params) :
    mapChannel P State.reset.cfg .ch1 100 = ⟨6, 0xFFFF - linCorr P 1966⟩ := by
  have scaled : scaleToCeiling 100 (State.reset.cfg.current .ch1) = 50 := by decide
  have duty : floorDuty State.reset.cfg (computedDuty State.reset.cfg 50) = 6 := by decide
  rw [mapChannel_pwmOnly P (by rw [scaled]; decide) (by rw [scaled]; decide), scaled, duty]
  rfl

/-! ## The command -/

/-- `SET_CHANNEL` on the number of a channel emits the mapped pair there (R97, R105). -/
theorem exec_setChannel_number (s : State) (c : Channel) (v : Word) :
    exec (.setChannel c.number v) s = (s.emit c (mapChannel Config.params s.cfg c v)).complete :=
  congrArg State.complete (mapOperand_number Config.params s c v)

/-! ## The obligations -/

/-- Settles O24: the pairs of the two regions, and the level is the exact difference to 65535, which no word exceeds. -/
theorem offAndAnalogRegions : Obligations.OffAndAnalogRegions := by
  refine fun P cfg c v => ⟨mapChannel_off P, fun hl h => mapChannel_analog P h hl, fun pre => ?_⟩
  have := (linCorr P pre).isLt
  rw [emittedLevel_toNat]
  omega

/-- Settles O34: the word is the row `F_CV` of R59, the two valid numbers emit, and every other number is the silent no-op of R98. -/
theorem setChannelMapsAndEmits : Obligations.SetChannelMapsAndEmits := by
  refine ⟨fun _ _ => rfl, fun s v => ⟨?_, ?_⟩, fun s c v h₁ h₂ => ?_, fun s hs => ?_⟩
  · exact exec_setChannel_number s .ch1 v
  · exact exec_setChannel_number s .ch2 v
  · obtain ⟨⟨-, noOp⟩, -, -⟩ := otherChannelNumbersAreSilentNoOps s c v 0 h₁ h₂
    exact noOp
  · refine ⟨_, exec_setChannel_number s .ch1 100, ?_⟩
    rw [hs, mapChannel_reset_100]
    rfl

end Sys2Proof.Machine

/-! # Composite operations and setters (43_composite_ops.md)

A two-channel command is one `mapBoth` and a one-channel command one `mapOperand`, so each next state is an equation of these. A request whose
product with the ceiling stays below 65535 has duty 0 (R99, R100): every corner case of R117, R119 and R121 is such a request. -/

namespace Sys2Proof.Machine

/-! ## The pair of a channel -/

/-- A request whose product with the ceiling is below 65535 scales to 0, and its duty is 0 (R99, R100). -/
theorem mapChannel_pwm_of_lt (P : Config.Params) {cfg : Cfg} {c : Channel} {v : Word}
    (h : v.toNat * (cfg.current c).toNat < 65535) : (mapChannel P cfg c v).pwm = 0 := by
  have scaled : scaleToCeiling v (cfg.current c) = 0 := by
    apply BitVec.eq_of_toNat_eq
    rw [scaleToCeiling_toNat, Nat.div_eq_of_lt h]
    rfl
  rw [mapChannel_off P scaled]

/-- Request 0 has duty 0 (R100). -/
@[simp] theorem mapChannel_zero_pwm (P : Config.Params) (cfg : Cfg) (c : Channel) : (mapChannel P cfg c 0).pwm = 0 :=
  mapChannel_pwm_of_lt P (by simp)

/-- The channel enters the mapper through its ceiling alone (R106). -/
theorem mapChannel_eq_of_current_eq (P : Config.Params) {cfg : Cfg} {c d : Channel} (v : Word)
    (h : cfg.current c = cfg.current d) : mapChannel P cfg c v = mapChannel P cfg d v := by
  simp only [mapChannel, h]

/-- The parameters enter the mapper through the linearity table alone (R104). -/
theorem mapChannel_eq_of_lin_eq {P Q : Config.Params} (hx : P.linX = Q.linX) (hy : P.linY = Q.linY) (cfg : Cfg) (c : Channel)
    (v : Word) : mapChannel P cfg c v = mapChannel Q cfg c v := by
  have points : linPoint P = linPoint Q := by
    funext k
    simp only [linPoint, hx, hy]
  have curve : linCurve P = linCurve Q := by simp only [linCurve, points]
  simp only [mapChannel, emittedLevel, linCorr, curve]

/-! ## The order of a two-channel command -/

/-- The two values of the parameter: channel 1 first, or channel 2 first (R124). -/
theorem map_emissionOrder {α : Type} (o : Config.EmitOrder) (f : Channel → α) :
    (emissionOrder o).map f = if o = .ch1First then [f .ch1, f .ch2] else [f .ch2, f .ch1] := by
  cases o <;> rfl

/-- Two emission orders are the same or opposite (R124). -/
theorem emissionOrder_eq_or_reverse (o o' : Config.EmitOrder) :
    emissionOrder o' = emissionOrder o ∨ emissionOrder o' = (emissionOrder o).reverse := by
  cases o <;> cases o' <;> decide

/-- The next state of a two-channel request, with its two events written out for each order (R115). -/
theorem mapBoth_eq (P : Config.Params) (s : State) (request : Channel → Word) :
    mapBoth P s request =
      let e₁ := emissionOf .ch1 (mapChannel P s.cfg .ch1 (request .ch1))
      let e₂ := emissionOf .ch2 (mapChannel P s.cfg .ch2 (request .ch2))
      { s with
        out1 := .holding (mapChannel P s.cfg .ch1 (request .ch1))
        out2 := .holding (mapChannel P s.cfg .ch2 (request .ch2))
        events := s.events ++ if P.emitOrder = .ch1First then [e₁, e₂] else [e₂, e₁] } := by
  simp only [mapBoth, map_emissionOrder]

/-! ## The split of `SET_TUNABLE` -/

/-- The warm request as the exact difference of R117, without its own narrowing of the cool part. -/
theorem warmPart_eq (lin : Word) (t : Byte) :
    warmPart lin t = BitVec.ofNat 16 (lin.toNat - t.toNat * lin.toNat / 255) := by
  rw [warmPart, (coolPart_toNat lin t).1]

/-- Temperature 0 has no cool part (R117). -/
theorem coolPart_temperature_zero (lin : Word) : coolPart lin 0 = 0 := by simp [coolPart]

/-- Temperature 255 has no warm part (R117). -/
theorem warmPart_temperature_max (lin : Word) : warmPart lin 255 = 0 := by simp [warmPart_eq]

/-- Nothing is split into nothing (R117). -/
theorem tunableRequest_zero (t : Byte) (c : Channel) : tunableRequest 0 t c = 0 := by
  cases c with
  | ch1 => simp [tunableRequest, warmPart]
  | ch2 => simp [tunableRequest, coolPart]

/-! ## The commands -/

/-- `SET_BRIGHTNESS` requests the table entry of both channels (R115). -/
theorem exec_setBrightness (s : State) (v : Byte) :
    exec (.setBrightness v) s = (mapBoth Config.params s fun _ => Config.params.gamma v).complete := rfl

/-- `SET_BRIGHTNESS_CH` is `SET_CHANNEL` with the table entry (R116). -/
theorem exec_setBrightnessCh (s : State) (c v : Byte) :
    exec (.setBrightnessCh c v) s = exec (.setChannel c (Config.params.gamma v)) s := rfl

/-- `SET_TUNABLE` requests the warm part of channel 1 and the cool part of channel 2 (R117). -/
theorem exec_setTunable (s : State) (b t : Byte) :
    exec (.setTunable b t) s = (mapBoth Config.params s (tunableRequest (Config.params.gamma b) t)).complete := rfl

/-- `SET_POWER 0` requests brightness 0 of both channels and then switches the rail off (R121). -/
theorem exec_setPower_off (s : State) :
    exec (.setPower false) s = ((mapBoth Config.params s fun _ => Config.params.gamma 0).rail false).complete := rfl

/-- `SET_CURRENT_CH` on the number of a channel writes the ceiling of that channel (R120). -/
theorem exec_setCurrentCh_number (s : State) (c : Channel) (v : Word) :
    exec (.setCurrentCh c.number v) s = (s.setCfg (s.cfg.setCurrent c v)).complete := by
  cases c <;> rfl

/-! ## The obligations -/

/-- Settles O35: the two-channel request of the table entry; the mapper sees a channel only through its ceiling. -/
theorem setBrightnessEmitsOnBothChannels : Obligations.SetBrightnessEmitsOnBothChannels := by
  refine fun s v => ⟨rfl, ?_, mapChannel_eq_of_current_eq (c := .ch1) (d := .ch2) _ _⟩
  rw [exec_setBrightness, mapBoth_eq]
  rfl

/-- Settles O37: the two-channel request of the two parts, which are the exact quotient and the exact rest; a part that is 0 has duty 0. -/
theorem setTunableSplitsTheBrightness : Obligations.SetTunableSplitsTheBrightness := by
  refine ⟨fun s b t => ⟨rfl, (coolPart_toNat _ t).2, ?_, ?_, ?_, ?_⟩, fun P cfg c b t h => ?_, by decide, by decide⟩
  · calc t.toNat * (Config.params.gamma b).toNat
      _ < 2 ^ 8 * 2 ^ 16 := Nat.mul_lt_mul'' t.isLt (Config.params.gamma b).isLt
      _ = 2 ^ 24 := by norm_num
  · rw [← warmPart_eq, exec_setTunable, mapBoth_eq]
    rfl
  · rintro rfl
    change (mapChannel _ s.cfg .ch2 (coolPart _ 0)).pwm = 0
    rw [coolPart_temperature_zero, mapChannel_zero_pwm]
  · rintro rfl
    rw [← warmPart_eq, warmPart_temperature_max, mapChannel_zero_pwm]
  · rw [brightnessToLinear, h, tunableRequest_zero, mapChannel_zero_pwm]

/-- Settles O41: on is the rail event alone, off is the two-channel request of entry 0 with the rail event after it, and a small product
scales to 0. -/
theorem setPowerSwitchesTheRail : Obligations.SetPowerSwitchesTheRail := by
  refine fun s => ⟨rfl, rfl, rfl, ?_, fun P c => mapChannel_pwm_of_lt P⟩
  rw [exec_setPower_off, mapBoth_eq]
  rfl

/-- Settles O43: equal linearity tables map every request to the same pair, so only the two events can differ, and only in their order. -/
theorem emissionOrderTouchesOnlyTheLog : Obligations.EmissionOrderTouchesOnlyTheLog := by
  refine fun P Q s request => ⟨mapBoth_eq_loop P s request, fun _ hx hy => ?_⟩
  have pairs := mapChannel_eq_of_lin_eq hx hy
  refine ⟨by simp only [mapBoth, pairs], _, _, rfl, rfl, ?_⟩
  simp only [pairs]
  obtain same | opposite := emissionOrder_eq_or_reverse P.emitOrder Q.emitOrder
  · exact .inl (by rw [same])
  · exact .inr (by rw [opposite, List.map_reverse])

/-- Settles O36: `SET_CHANNEL` with the table entry, whose three cases O34 gives. -/
theorem setBrightnessChEmitsOnOneChannel : Obligations.SetBrightnessChEmitsOnOneChannel := by
  intro s c v
  obtain ⟨-, valid, other, -⟩ := setChannelMapsAndEmits
  obtain ⟨first, second⟩ := valid s (Config.params.gamma v)
  refine ⟨rfl, ?_, ?_, ?_⟩
  · rw [exec_setBrightnessCh, first]
  · rw [exec_setBrightnessCh, second]
  · rw [exec_setBrightnessCh]
    exact other s c _

/-- Settles O39: one write of the two ceilings; under a ceiling of 0 every product is 0. -/
theorem setCurrentWritesBothCeilings : Obligations.SetCurrentWritesBothCeilings := by
  refine fun s v => ⟨rfl, rfl, fun P c request => mapChannel_pwm_of_lt P ?_⟩
  cases c <;> simp [Cfg.current]

/-- Settles O40: the two valid numbers write their channel's ceiling, and every other number is the silent no-op of O9. -/
theorem setCurrentChWritesOneCeiling : Obligations.SetCurrentChWritesOneCeiling := by
  refine fun s c v => ⟨rfl, exec_setCurrentCh_number s .ch1 v, exec_setCurrentCh_number s .ch2 v, fun h₁ h₂ => ?_⟩
  obtain ⟨-, -, -, noOp⟩ := otherChannelNumbersAreSilentNoOps s c v 0 h₁ h₂
  exact noOp

/-- Settles O42: one write each; no duty is below a floor of 0, and every non-zero duty is raised to a floor of 255 or already there. -/
theorem thresholdSettersWriteTheirRegister : Obligations.ThresholdSettersWriteTheirRegister := by
  refine fun s v b => ⟨rfl, rfl, rfl, rfl, fun pwm0 => ⟨?_, fun nonzero => ?_⟩⟩
  · exact if_neg fun ⟨_, below⟩ => absurd below (by simp)
  · by_cases below : pwm0 < 255
    · exact if_pos ⟨nonzero, below⟩
    · have full : pwm0 = 255 := by bv_omega
      rw [floorDuty, if_neg fun ⟨_, h⟩ => below h, full]

end Sys2Proof.Machine

/-! # Exceptions (60_exceptions.md)

What one step adds to the log and to `POS` (R150), and the answers a step can have (R140, R142). -/

namespace Sys2Proof.Machine

/-! ## The log and the count -/

/-- A command is counted once and logs at most three events (R150). -/
theorem exec_next_counts {i : Instr} {s t : State} (h : exec i s = .next t) :
    t.pos = s.pos + 1 ∧ t.events.length ≤ s.events.length + 3 := by
  obtain ⟨t', new, ht', eff⟩ := exec_effect i s
  obtain rfl : t' = t := by simpa [ht'] using h
  refine ⟨eff.pos, ?_⟩
  rw [eff.events, List.length_append]
  exact Nat.add_le_add_left eff.atMostThree _

/-- A step that answers a next state waits, or counts one command and logs at most three events (R150, R162). -/
theorem step_next_counts {s t : State} (h : step s = .next t) :
    t = s ∨ t.pos = s.pos + 1 ∧ t.events.length ≤ s.events.length + 3 := by
  obtain ⟨-, hs⟩ | ⟨w, rest, i, -, -, hs⟩ | ⟨w, rest, e, -, -, hs⟩ := step_cases s <;> rw [hs] at h
  case inl => exact .inl (by simpa using h.symm)
  case inr.inl => exact .inr (exec_next_counts (s := { s with input := rest }) h)
  case inr.inr => exact absurd h (refuseWord_ne_next _ _ _)

/-! ## The answers of a step -/

/-- The refusal of a word is one of the decoder's two (R61, R62). -/
theorem refuseWord_eq_refused (s : State) (e : DecodeError) :
    (∃ op t, s.refuseWord e = .refused (.reservedOpcode op t)) ∨
      ∃ w t, s.refuseWord e = .refused (.nonzeroReservedField w t) := by
  cases e with
  | reservedOpcode op => exact .inl ⟨op, _, rfl⟩
  | nonzeroReservedField w => exact .inr ⟨w, _, rfl⟩

/-! ## The obligations -/

/-- Settles O48: a waiting step changes neither side of the bound, and a command raises `3 * POS` by 3 and the log by at most 3. -/
theorem stepKeepsTheLogBounded : Obligations.StepKeepsTheLogBounded := by
  intro s t bound h
  obtain rfl | ⟨hpos, hevents⟩ := step_next_counts h
  · exact bound
  · omega

/-- Settles O51: waiting and a command answer a next state, and a refusal is the refusal of a word; there is no fault to answer with. -/
theorem stepNeverFaults : Obligations.StepNeverFaults := by
  refine fun s => ⟨nofun, ?_⟩
  obtain ⟨-, hs⟩ | ⟨w, rest, i, -, -, hs⟩ | ⟨w, rest, e, -, -, hs⟩ := step_cases s <;> rw [hs]
  case inl => exact .inl ⟨s, rfl⟩
  case inr.inl =>
    obtain ⟨t, new, ht, -⟩ := exec_effect i { s with input := rest }
    exact .inl ⟨t, ht⟩
  case inr.inr => exact .inr (refuseWord_eq_refused _ e)

end Sys2Proof.Machine

/-! # Reset and hazards (70_reset_and_hazards.md)

The step without a command (R162), and the invariants at the reset state (R161). -/

namespace Sys2Proof.Machine

/-! ## The latches under an empty log -/

/-- An empty log has no last event about any place, so the latches and the rail follow it exactly while none of them has a value (R31, R32). -/
theorem latchesFollowLog_iff_of_events_nil {s : State} (events : s.events = []) :
    LatchesFollowLog s ↔ s.out1.record = none ∧ s.out2.record = none ∧ s.railOn.record = none := by
  constructor
  · rintro ⟨out1, out2, rail⟩
    rw [events] at out1 out2 rail
    exact ⟨out1, out2, rail⟩
  · rintro ⟨out1, out2, rail⟩
    constructor <;> rw [events] <;> assumption

/-! ## The obligations -/

/-- Settles O8: with no word issued there is none to take, and the step is the core's wait. -/
theorem stepWaitsWithoutACommand : Obligations.StepWaitsWithoutACommand := by
  intro s noWord
  have nothingTaken : s.takeCommand = none := (takeCommand_eq_none s).mpr noWord
  rw [step, nothingTaken, State.wait]

/-- Settles O49: at reset the log is empty, no place has a value, nothing is counted and nothing was refused (R161). -/
theorem resetMeetsTheInvariants : Obligations.ResetMeetsTheInvariants := by
  refine ⟨(latchesFollowLog_iff_of_events_nil rfl).mpr ⟨rfl, rfl, rfl⟩, ?_, rfl⟩
  exact Nat.zero_le _

end Sys2Proof.Machine

/-! # Interpolator: range and monotonicity (40_interpolator.md section 2)

On each segment, its upper end excluded, the result is the lower `y` moved by `delta` towards the upper one (R80, R82). Two neighbouring
queries lie at or beyond one end of the curve or in one segment, its upper end included, so results that are in order segment by segment are in
order over the whole domain (R83). -/

namespace Sys2Proof.Machine

/-! ## The range of a segment -/

/-- The lower breakpoint is at distance 0 from itself (R80). -/
@[simp] theorem segmentDelta_lo (lo hi : Breakpoint) : segmentDelta lo hi lo.x = 0 := by simp [segmentDelta]

/-- Strictly inside a rising segment the result is at or above the lower `y` and below the higher one (R82). -/
theorem interp_inside_rising {c : Curve} {lo hi : Breakpoint} {x : Word} (hseg : Segment c lo hi) (hlo : lo.x < x)
    (hhi : x < hi.x) (hy : lo.y < hi.y) : lo.y ≤ interp c x ∧ interp c x < hi.y := by
  have value := (interp_slopeMethod hseg hlo hhi).1 (BitVec.le_of_lt hy)
  have bound := segmentDelta_lt hlo hhi (Std.ne_of_lt hy)
  rw [BitVec.lt_def] at hy ⊢
  rw [BitVec.le_def]
  omega

/-- Strictly inside a falling segment the result is at or below the lower breakpoint's `y` and above the higher one's (R82). -/
theorem interp_inside_falling {c : Curve} {lo hi : Breakpoint} {x : Word} (hseg : Segment c lo hi) (hlo : lo.x < x)
    (hhi : x < hi.x) (hy : hi.y < lo.y) : hi.y < interp c x ∧ interp c x ≤ lo.y := by
  obtain ⟨value, bound⟩ := segmentValue_falling hlo hhi hy
  rw [interp_inside hseg hlo hhi]
  rw [BitVec.lt_def] at hy ⊢
  rw [BitVec.le_def]
  omega

/-- No intermediate of the slope method exceeds `65535 * 255` (R82). -/
theorem slopeMethod_intermediates {dy dx r : Nat} (hdy : dy ≤ 65535) (hr : r < dx) :
    dy * 255 ≤ 16711425 ∧ dy * 255 / dx * r < 2 ^ 24 := by
  have scaled : dy * 255 ≤ 16711425 := by omega
  refine ⟨scaled, ?_⟩
  calc dy * 255 / dx * r
    _ ≤ dy * 255 / dx * dx := Nat.mul_le_mul_left _ hr.le
    _ ≤ dy * 255 := Nat.div_mul_le_self _ _
    _ < 2 ^ 24 := by omega

/-! ## Order inside a segment -/

/-- From the lower breakpoint of a rising or flat segment up to its upper one, the result is the lower `y` plus `delta`, and not above
the upper `y` (R79, R80, R82). -/
theorem interp_rising {c : Curve} {lo hi : Breakpoint} {x : Word} (hseg : Segment c lo hi) (hlo : lo.x ≤ x) (hhi : x < hi.x)
    (hy : lo.y ≤ hi.y) : (interp c x).toNat = lo.y.toNat + segmentDelta lo hi x ∧ interp c x ≤ hi.y := by
  by_cases atLo : x = lo.x
  · rw [atLo, interp_breakpoint hseg.mem.1, segmentDelta_lo]
    exact ⟨rfl, hy⟩
  have inside : lo.x < x := Std.lt_of_le_of_ne hlo (Ne.symm atLo)
  refine ⟨(interp_slopeMethod hseg inside hhi).1 hy, ?_⟩
  by_cases flat : lo.y = hi.y
  · rw [interp_flat hseg flat hlo (BitVec.le_of_lt hhi)]
    exact hy
  · exact BitVec.le_of_lt (interp_inside_rising hseg inside hhi (Std.lt_of_le_of_ne hy flat)).2

/-- From the lower breakpoint of a falling or flat segment up to its upper one, the result is the lower breakpoint's `y` less `delta`, and not
below the upper one's (R79, R80, R82). -/
theorem interp_falling {c : Curve} {lo hi : Breakpoint} {x : Word} (hseg : Segment c lo hi) (hlo : lo.x ≤ x) (hhi : x < hi.x)
    (hy : hi.y ≤ lo.y) : (interp c x).toNat = lo.y.toNat - segmentDelta lo hi x ∧ hi.y ≤ interp c x := by
  by_cases atLo : x = lo.x
  · rw [atLo, interp_breakpoint hseg.mem.1, segmentDelta_lo]
    exact ⟨rfl, hy⟩
  have inside : lo.x < x := Std.lt_of_le_of_ne hlo (Ne.symm atLo)
  by_cases flat : lo.y = hi.y
  · rw [interp_flat hseg flat hlo (BitVec.le_of_lt hhi), segmentDelta_flat x flat]
    exact ⟨rfl, hy⟩
  · have falls : hi.y < lo.y := Std.lt_of_le_of_ne hy (Ne.symm flat)
    exact ⟨((interp_slopeMethod hseg inside hhi).2 falls).1, BitVec.le_of_lt (interp_inside_falling hseg inside hhi falls).1⟩

/-- In a rising or flat segment, its upper end included, a larger query gives no smaller result (R83). -/
theorem interp_le_of_rising {c : Curve} {lo hi : Breakpoint} {x x' : Word} (hseg : Segment c lo hi) (hy : lo.y ≤ hi.y)
    (hlo : lo.x ≤ x) (hx : x < x') (hhi : x' ≤ hi.x) : interp c x ≤ interp c x' := by
  obtain ⟨value, bound⟩ := interp_rising hseg hlo (Std.lt_of_lt_of_le hx hhi) hy
  by_cases atHi : x' = hi.x
  · rwa [atHi, interp_breakpoint hseg.mem.2]
  · obtain ⟨value', -⟩ := interp_rising hseg (BitVec.le_trans hlo (BitVec.le_of_lt hx)) (Std.lt_of_le_of_ne hhi atHi) hy
    rw [BitVec.le_def, value, value']
    exact Nat.add_le_add_left (segmentDelta_mono lo hi (BitVec.le_of_lt hx)) _

/-- In a falling or flat segment, its upper end included, a larger query gives no larger result (R83). -/
theorem interp_ge_of_falling {c : Curve} {lo hi : Breakpoint} {x x' : Word} (hseg : Segment c lo hi) (hy : hi.y ≤ lo.y)
    (hlo : lo.x ≤ x) (hx : x < x') (hhi : x' ≤ hi.x) : interp c x' ≤ interp c x := by
  obtain ⟨value, bound⟩ := interp_falling hseg hlo (Std.lt_of_lt_of_le hx hhi) hy
  by_cases atHi : x' = hi.x
  · rwa [atHi, interp_breakpoint hseg.mem.2]
  · obtain ⟨value', -⟩ := interp_falling hseg (BitVec.le_trans hlo (BitVec.le_of_lt hx)) (Std.lt_of_le_of_ne hhi atHi) hy
    rw [BitVec.le_def, value, value']
    exact Nat.sub_le_sub_left (segmentDelta_mono lo hi (BitVec.le_of_lt hx)) _

/-! ## From neighbouring queries to the whole domain -/

/-- What holds of every two breakpoints in order holds of the ends of a segment. -/
theorem Segment.rel {c : Curve} {lo hi : Breakpoint} {R : Breakpoint → Breakpoint → Prop} (hseg : Segment c lo hi)
    (h : c.points.Pairwise R) : R lo hi :=
  List.pairwise_pair.mp (h.sublist hseg.sublist)

/-- Between a breakpoint at or before the query and one after it, two successive ones are on either side of it (R78). -/
theorem exists_infix_around {lo : Breakpoint} {rest : List Breakpoint} {x : Word} (hlo : lo.x ≤ x)
    (after : ∃ p ∈ rest, x < p.x) : ∃ a b, [a, b] <:+: lo :: rest ∧ a.x ≤ x ∧ x < b.x := by
  induction rest generalizing lo with
  | nil => simp at after
  | cons hi more ih =>
    by_cases here : x < hi.x
    · exact ⟨lo, hi, (List.prefix_append [lo, hi] more).isInfix, hlo, here⟩
    · obtain ⟨p, hp, hx⟩ := after
      have later : p ∈ more := (List.mem_cons.mp hp).resolve_left fun h => here (h ▸ hx)
      obtain ⟨a, b, hab, sides⟩ := ih (BitVec.not_lt.mp here) ⟨p, later, hx⟩
      exact ⟨a, b, List.infix_cons hab, sides⟩

/-- Two neighbouring queries are both clamped at one end, or lie in one segment, its ends included (R76 to R80). -/
theorem interp_neighbours (c : Curve) {x x' : Word} (next : x'.toNat = x.toNat + 1) :
    interp c x = interp c x' ∨ ∃ lo hi, Segment c lo hi ∧ lo.x ≤ x ∧ x < x' ∧ x' ≤ hi.x := by
  have below : x < x' := by rw [BitVec.lt_def]; omega
  by_cases hlast : c.last.x ≤ x
  · exact .inl (by rw [interp_of_last_le hlast, interp_of_last_le (BitVec.le_trans hlast (BitVec.le_of_lt below))])
  by_cases hfirst : x' ≤ c.first.x
  · exact .inl (by rw [interp_of_le_first hfirst, interp_of_le_first (BitVec.le_trans (BitVec.le_of_lt below) hfirst)])
  have fromFirst : c.first.x ≤ x := by rw [BitVec.le_def] at hfirst ⊢; omega
  obtain ⟨lo, hi, hseg, hlo, hhi⟩ :=
    exists_infix_around fromFirst ⟨c.last, List.getLast_mem c.twoPoints, BitVec.not_le.mp hlast⟩
  have toHi : x' ≤ hi.x := by rw [BitVec.lt_def] at hhi; rw [BitVec.le_def]; omega
  exact .inr ⟨lo, hi, hseg, hlo, below, toHi⟩

/-- The interpolator as a function of the 65536 queries in their order (R83). -/
def interpAt (c : Curve) (i : Fin (65535 + 1)) : Nat := (interp c (BitVec.ofFin i)).toNat

theorem interpAt_monotone {c : Curve} (h : YNondecreasing c) : Monotone (interpAt c) := by
  refine Fin.monotone_iff_le_succ.mpr fun i => ?_
  obtain same | ⟨lo, hi, hseg, hlo, hx, hhi⟩ :=
    interp_neighbours c (x := BitVec.ofFin i.castSucc) (x' := BitVec.ofFin i.succ) rfl
  · exact (congrArg BitVec.toNat same).le
  · exact interp_le_of_rising hseg (hseg.rel h) hlo hx hhi

theorem interpAt_antitone {c : Curve} (h : YNonincreasing c) : Antitone (interpAt c) := by
  refine Fin.antitone_iff_succ_le.mpr fun i => ?_
  obtain same | ⟨lo, hi, hseg, hlo, hx, hhi⟩ :=
    interp_neighbours c (x := BitVec.ofFin i.castSucc) (x' := BitVec.ofFin i.succ) rfl
  · exact (congrArg BitVec.toNat same).ge
  · exact interp_ge_of_falling hseg (hseg.rel h) hlo hx hhi

/-! ## The obligations -/

/-- Settles O15: the value inside a segment with `delta` below `dy`; the truncated slope times a distance below `dx` stays below the
dividend of the slope. -/
theorem interpStaysInsideItsSegment : Obligations.InterpStaysInsideItsSegment := by
  intro c lo hi x hseg hlo hhi dx r dy
  have below := BitVec.lt_def.mp hlo
  have above := BitVec.lt_def.mp hhi
  refine ⟨interp_inside_rising hseg hlo hhi, interp_inside_falling hseg hlo hhi, fun flat => ?_, fun steep => ?_,
    slopeMethod_intermediates ?_ ?_⟩
  · exact interp_flat hseg flat (BitVec.le_of_lt hlo) (BitVec.le_of_lt hhi)
  · refine segmentDelta_lt hlo hhi fun flat => ?_
    simp [dy, flat] at steep
  · have := lo.y.isLt
    have := hi.y.isLt
    omega
  · omega

/-- Settles O16: the results of neighbouring queries are in order, so all are. -/
theorem interpIsMonotone : Obligations.InterpIsMonotone :=
  fun _ x x' hx => ⟨fun h => interpAt_monotone h (a := x.toFin) (b := x'.toFin) hx,
    fun h => interpAt_antitone h (a := x.toFin) (b := x'.toFin) hx⟩

/-- Settles O12: the left clamp, and the first breakpoint lies before the last. -/
theorem interpClampsOnTheLeft : Obligations.InterpClampsOnTheLeft :=
  fun c _ h => ⟨interp_of_le_first h, Std.not_le.mpr (Std.lt_of_le_of_lt h c.first_lt_last)⟩

/-- Settles O18: the right clamp of the linearity curve, whose last `y` is the one known value of the table (R29). -/
theorem linCorrIsKnownAtTheTop : Obligations.LinCorrIsKnownAtTheTop :=
  fun P => ⟨fun _ => linCorr_of_last_le, linCorr_max P⟩

end Sys2Proof.Machine

/-! # Channel mapper: exact arithmetic and properties (42_channel_mapper.md sections 2 and 3)

Each step of the mapper as a number (R99 to R104): the scaled value against its ceiling, the duty and the pre-correction level of a scaled value
as one expression over the regions, and the floor as its two cases. The properties of section 3 (R107 to R113) follow from these. -/

namespace Sys2Proof.Machine

/-! ## The scaled value -/

/-- The scaled value is never above the ceiling (R99). -/
theorem scaleToCeiling_le (v current : Word) : scaleToCeiling v current ≤ current := by
  have := v.isLt
  rw [BitVec.le_def, scaleToCeiling_toNat]
  refine Nat.div_le_of_le_mul ?_
  exact Nat.mul_le_mul_right _ (by omega)

/-- A request that is not full stays below a ceiling that is not 0 (R99). -/
theorem scaleToCeiling_lt {v current : Word} (hv : v ≠ 65535) (hc : current ≠ 0) : scaleToCeiling v current < current := by
  have notFull : v.toNat < 65535 := by bv_omega
  have positive : 0 < current.toNat := by bv_omega
  rw [BitVec.lt_def, scaleToCeiling_toNat, Nat.div_lt_iff_lt_mul (by norm_num), Nat.mul_comm]
  exact Nat.mul_lt_mul_of_pos_left notFull positive

/-- The scaled value is 0 exactly when the product is below 65535 (R99, R107). -/
theorem scaleToCeiling_eq_zero_iff (v current : Word) :
    scaleToCeiling v current = 0 ↔ v.toNat * current.toNat < 65535 := by
  rw [← BitVec.toNat_inj, scaleToCeiling_toNat]
  simp [Nat.div_eq_zero_iff]

/-- Both channels have the ceiling 32768 at reset (R161). -/
theorem current_reset (c : Channel) : State.reset.cfg.current c = 32768 := by cases c <;> rfl

/-! ## The duty and the level as numbers -/

/-- A non-zero computed duty below the floor is raised to it (R102). -/
theorem floorDuty_raised {cfg : Cfg} {pwm0 : Byte} (h : pwm0 ≠ 0) (hl : pwm0 < cfg.pwmMin) : floorDuty cfg pwm0 = cfg.pwmMin :=
  if_pos ⟨h, hl⟩

/-- Every other computed duty is the duty (R102). -/
theorem floorDuty_kept {cfg : Cfg} {pwm0 : Byte} (h : pwm0 = 0 ∨ cfg.pwmMin ≤ pwm0) : floorDuty cfg pwm0 = pwm0 :=
  if_neg fun ⟨nonzero, below⟩ => h.elim nonzero (BitVec.not_le.mpr below)

/-- The floor as a number (R102). -/
theorem floorDuty_toNat (cfg : Cfg) (pwm0 : Byte) :
    (floorDuty cfg pwm0).toNat =
      if pwm0.toNat ≠ 0 ∧ pwm0.toNat < cfg.pwmMin.toNat then cfg.pwmMin.toNat else pwm0.toNat := by
  have test : (pwm0 ≠ 0 ∧ pwm0 < cfg.pwmMin) ↔ (pwm0.toNat ≠ 0 ∧ pwm0.toNat < cfg.pwmMin.toNat) := by
    rw [BitVec.lt_def, ne_eq, ← BitVec.toNat_inj]
    rfl
  rw [floorDuty, apply_ite BitVec.toNat]
  simp only [test]

/-- The duty of a scaled value as a number, over the three regions (R100 to R103). -/
theorem dutyOf_toNat (cfg : Cfg) (scaled : Word) :
    (dutyOf cfg scaled).toNat =
      let pwm0 := scaled.toNat * 255 / cfg.analogMin.toNat
      if scaled.toNat = 0 then 0
      else if scaled.toNat < cfg.analogMin.toNat then
        (if pwm0 ≠ 0 ∧ pwm0 < cfg.pwmMin.toNat then cfg.pwmMin.toNat else pwm0)
      else 255 := by
  have isZero : scaled = 0 ↔ scaled.toNat = 0 := BitVec.toNat_inj.symm
  by_cases h : scaled = 0
  · simp [dutyOf, regionOf_off cfg h, isZero.mp h]
  have nonzero : scaled.toNat ≠ 0 := mt isZero.mpr h
  by_cases hl : scaled < cfg.analogMin
  · obtain ⟨computed, -⟩ := computedDuty_toNat hl
    simp [dutyOf, regionOf_pwmOnly h hl, nonzero, BitVec.lt_def.mp hl, floorDuty_toNat, computed]
  · simp [dutyOf, regionOf_analog h hl, nonzero, mt BitVec.lt_def.mpr hl]

/-- A scaled value too small for one step of the duty has duty 0 (R100, R101). -/
theorem dutyOf_eq_zero_of_lt {cfg : Cfg} {scaled : Word} (h : scaled.toNat * 255 < cfg.analogMin.toNat) :
    dutyOf cfg scaled = 0 := by
  have below : scaled.toNat < cfg.analogMin.toNat := by omega
  apply BitVec.eq_of_toNat_eq
  rw [dutyOf_toNat]
  simp [Nat.div_eq_of_lt h, below]

/-- The pre-correction level of a scaled value as a number, over the three regions (R100, R101, R103). -/
theorem preLevel_toNat (cfg : Cfg) (scaled : Word) :
    (preLevel cfg scaled).toNat =
      if scaled.toNat = 0 then cfg.analogMin.toNat
      else if scaled.toNat < cfg.analogMin.toNat then cfg.analogMin.toNat else scaled.toNat := by
  have isZero : scaled = 0 ↔ scaled.toNat = 0 := BitVec.toNat_inj.symm
  by_cases h : scaled = 0
  · simp [preLevel, regionOf_off cfg h, isZero.mp h]
  have nonzero : scaled.toNat ≠ 0 := mt isZero.mpr h
  by_cases hl : scaled < cfg.analogMin
  · simp [preLevel, regionOf_pwmOnly h hl, nonzero, BitVec.lt_def.mp hl]
  · simp [preLevel, regionOf_analog h hl, nonzero, mt BitVec.lt_def.mpr hl]

/-! ## The extremes of the configuration -/

/-- A threshold of 0 leaves no room for the PWM-only region (R110). -/
theorem analogMin_ne_zero_of_pwmOnly {cfg : Cfg} {scaled : Word} (h : regionOf cfg scaled = .pwmOnly) : cfg.analogMin ≠ 0 := by
  intro threshold
  have notBelow : ¬ scaled < cfg.analogMin := by rw [threshold]; exact BitVec.not_lt_zero
  by_cases zero : scaled = 0
  · simp [regionOf_off cfg zero] at h
  · simp [regionOf_analog zero notBelow] at h

/-- A full request has the duty and the level of the ceiling itself (R99, R111). -/
theorem mapChannel_full_request (P : Config.Params) (cfg : Cfg) (c : Channel) :
    mapChannel P cfg c 65535 =
      ⟨dutyOf cfg (cfg.current c), 0xFFFF - linCorr P (preLevel cfg (cfg.current c))⟩ := by
  rw [mapChannel, scaleToCeiling_full, emittedLevel_eq_sub]

/-- Under a full ceiling a full request is in the analog region at 65535, where the correction is known (R86, R112). -/
theorem mapChannel_full_scale (P : Config.Params) {cfg : Cfg} {c : Channel} (h : cfg.current c = 65535) :
    mapChannel P cfg c 65535 = ⟨255, 4285⟩ := by
  have scaled : scaleToCeiling 65535 (cfg.current c) = 65535 := by rw [scaleToCeiling_full, h]
  have top : cfg.analogMin ≤ 65535 := by rw [BitVec.le_def]; exact Nat.le_of_lt_succ cfg.analogMin.isLt
  rw [mapChannel_analog P (by rw [scaled]; decide) (by rwa [scaled]), scaled, linCorr_max]
  rfl

/-! ## The commands -/

/-- A ceiling command writes the configuration alone: the ceiling of its channel, and not the threshold (R119, R120). -/
theorem exec_ceiling {s : State} {c : Channel} {X : Word} {set : Instr}
    (h : set = .setCurrentCh c.number X ∨ set = .setCurrent X) :
    ∃ cfg : Cfg, exec set s = (s.setCfg cfg).complete ∧ cfg.current c = X ∧ cfg.analogMin = s.cfg.analogMin := by
  obtain rfl | rfl := h
  · exact ⟨_, exec_setCurrentCh_number s c X, by simp, by simp⟩
  · exact ⟨_, rfl, by cases c <;> rfl, rfl⟩

/-! ## The obligations -/

/-- Settles O22: the exact quotient, below the ceiling unless the request is full or the ceiling 0. -/
theorem scalingIsExact : Obligations.ScalingIsExact := by
  refine fun v current => ⟨scaleToCeiling_toNat v current, ?_, scaleToCeiling_le v current, fun same => ?_, ?_⟩
  · calc v.toNat * current.toNat
      _ < 2 ^ 16 * 2 ^ 16 := Nat.mul_lt_mul'' v.isLt current.isLt
      _ = 2 ^ 32 := by norm_num
  · by_contra neither
    obtain ⟨notFull, nonzero⟩ := not_or.mp neither
    exact Std.ne_of_lt (scaleToCeiling_lt notFull nonzero) same
  · rintro (rfl | rfl)
    · exact scaleToCeiling_full current
    · exact BitVec.le_zero_iff.mp (scaleToCeiling_le v 0)

/-- Settles O23: the duty and the pre-correction level as numbers, at the exact scaled value. -/
theorem mapChannelComputesTheSpecFunction : Obligations.MapChannelComputesTheSpecFunction := by
  intro P cfg c v scaled threshold pwm0 pwm pre
  have exact_scaled : (scaleToCeiling v (cfg.current c)).toNat = scaled := scaleToCeiling_toNat v _
  have level : (preLevel cfg (scaleToCeiling v (cfg.current c))).toNat = pre := by rw [preLevel_toNat, exact_scaled]
  refine ⟨?_, ?_, ?_⟩
  · change (dutyOf cfg _).toNat = pwm
    rw [dutyOf_toNat, exact_scaled]
  · rw [← level, BitVec.ofNat_toNat, BitVec.setWidth_eq]
    exact emittedLevel_toNat P _
  · rw [← level]
    exact BitVec.isLt _

/-- Settles O25: the pair of the PWM-only region, whose computed duty is the exact quotient, in the two cases of the floor. -/
theorem pwmRegionDuty : Obligations.PwmRegionDuty := by
  intro P cfg c v scaled pwm0 h hl
  obtain ⟨computed, bound⟩ := computedDuty_toNat hl
  rw [mapChannel_pwmOnly P h hl]
  refine ⟨by bv_omega, bound, fun positive below => floorDuty_raised ?_ ?_, fun kept => ?_, rfl⟩
  · rintro zero
    rw [zero] at computed
    exact positive.ne computed
  · rwa [BitVec.lt_def, computed]
  · rw [floorDuty_kept, computed]
    rwa [← BitVec.toNat_inj, BitVec.le_def, computed]

/-- Settles O26: no duty of a scaled value lies below the floor; a scaled value up to 7 times 255 stays below the reset threshold 1966. -/
theorem noDutyBelowTheFloor : Obligations.NoDutyBelowTheFloor := by
  refine ⟨fun P cfg c v => dutyOf_above_floor cfg _, fun P c v low high => ?_⟩
  have range : 1 ≤ scaleToCeiling v 32768 ∧ scaleToCeiling v 32768 ≤ 7 := by
    rw [BitVec.le_def] at low high
    rw [BitVec.le_def, BitVec.le_def, scaleToCeiling_toNat]
    simp at low high ⊢
    omega
  change dutyOf State.reset.cfg (scaleToCeiling v (State.reset.cfg.current c)) = 0 ∧ _
  rw [current_reset]
  refine ⟨dutyOf_eq_zero_of_lt ?_, range⟩
  obtain ⟨-, atMostSeven⟩ := range
  calc (scaleToCeiling v 32768).toNat * 255
    _ ≤ 7 * 255 := Nat.mul_le_mul_right _ atMostSeven
    _ < State.reset.cfg.analogMin.toNat := by decide

/-- Settles O28: one below the threshold the quotient is 255 less a fraction that is at most 1 from a threshold of 255 on. -/
theorem thresholdEdges : Obligations.ThresholdEdges := by
  refine fun cfg scaled => ⟨fun below room => ?_, fun atThreshold h => ?_⟩
  · have h : scaled ≠ 0 := by bv_omega
    have hl : scaled < cfg.analogMin := by bv_omega
    obtain ⟨computed, bound⟩ := computedDuty_toNat hl
    have region := regionOf_pwmOnly h hl
    refine ⟨region, by rw [preLevel, region], computed, fun large => ?_, ?_⟩
    · have next : cfg.analogMin.toNat = scaled.toNat + 1 := by bv_omega
      have large : 255 ≤ cfg.analogMin.toNat := BitVec.le_def.mp large
      apply BitVec.eq_of_toNat_eq
      rw [computed]
      exact Nat.div_eq_of_lt_le (by simp; omega) (by simp; omega)
    · rwa [BitVec.le_def, computed]
  · have region := regionOf_analog h (cfg := cfg) (by rw [atThreshold]; exact BitVec.lt_irrefl _)
    exact ⟨region, by rw [dutyOf, region], by rw [preLevel, region, atThreshold]⟩

/-- Settles O29: each of the three conditions makes the product smaller than 65535, and the scaled value 0. -/
theorem smallRequestsTurnTheChannelOff : Obligations.SmallRequestsTurnTheChannelOff := by
  refine ⟨fun P cfg c v small => mapChannel_off P ((scaleToCeiling_eq_zero_iff _ _).mpr ?_), fun v => ?_⟩
  · obtain small | rfl | none := small
    · exact small
    · simp
    · simp [none]
  · rw [BitVec.le_def]
    simp
    omega

/-- Settles O30: nothing is below a threshold of 0, every scaled value is below a threshold above its ceiling, and the two floors are the
corners of O42. -/
theorem unvalidatedConfigurationIsDefined : Obligations.UnvalidatedConfigurationIsDefined := by
  intro cfg scaled pwm0 c v
  obtain ⟨-, -, -, -, floors⟩ := thresholdSettersWriteTheirRegister (State.reset.setCfg cfg) 0 0
  obtain ⟨noFloor, fullFloor⟩ := floors pwm0
  refine ⟨fun threshold h => regionOf_analog h ?_, analogMin_ne_zero_of_pwmOnly, fun above h => regionOf_pwmOnly h ?_, ?_, ?_⟩
  · rw [threshold]
    exact BitVec.not_lt_zero
  · exact Std.lt_of_le_of_lt (scaleToCeiling_le v _) above
  all_goals
    intro floor
    obtain ⟨analogMin, pwmMin, current0, current1⟩ := cfg
    subst floor
    assumption

/-- Settles O31: a full request scales to the ceiling just written, and the mapper's pair is that of this scaled value. -/
theorem ceilingThenFullRequest : Obligations.CeilingThenFullRequest := by
  intro s c X set hset
  obtain ⟨cfg, ht, ceiling, threshold⟩ := exec_ceiling (s := s) hset
  refine ⟨_, _, ht, exec_setChannel_number _ c 65535, ?_, ?_, ?_⟩
  · exact (scaleToCeiling_full _).trans ceiling
  · rw [mapChannel_full_request, State.countCommand_out, State.emit_out, if_pos rfl]
    simp only [State.countCommand_cfg, State.setCfg_cfg, ceiling]
  · simp [regionOf, threshold]

/-- Settles O32: `SET_CHANNEL` emits the pair of the mapper, which is `(255, 4285)`. -/
theorem fullScaleRequest : Obligations.FullScaleRequest := by
  intro s c h
  rw [exec_setChannel_number, mapChannel_full_scale _ h]
  cases c <;> rfl

/-- Settles O33: an emission leaves the configuration, so the second request maps to the same pair. -/
theorem repeatedRequestLogsTwice : Obligations.RepeatedRequestLogsTwice := by
  intro s c v
  refine ⟨_, _, emissionOf c (mapChannel Config.params s.cfg c v), exec_setChannel_number s c v,
    exec_setChannel_number _ c v, ?_, ?_, ?_⟩ <;> simp

end Sys2Proof.Machine

/-! # Composite operations: sum, emitting commands, frame (43_composite_ops.md sections 1 and 5, 10_state.md section 5)

`SET_TUNABLE` splits an entry without a rest (R118). What a command logs and what it leaves alone are clauses of its effect (`exec_effect`); the
effect gives the rail and the latches by the events that are logged, so a command without an emission keeps both latches, and a command other
than `SET_POWER`, which writes the rail nowhere, keeps the rail (R35, R125). -/

namespace Sys2Proof.Machine

/-! ## The latches -/

/-- Events without an emission put nothing into a latch (R32). -/
theorem filterMap_pairOn_of_no_emission {new : List Event} (h : new.any Event.isEmission = false) (c : Channel) :
    new.filterMap (pairOn c) = [] := by
  refine List.filterMap_eq_nil_iff.mpr fun e he => ?_
  cases e with
  | emit d p a => exact absurd rfl (List.any_eq_false.mp h _ he)
  | rail b => rfl

/-- A command that emits nothing keeps both latches (R35, R125). -/
theorem Effect.latches_of_no_emission {i : Instr} {s t : State} {new : List Event} (eff : Effect i s t new)
    (h : emitsPair i = false) : t.out1 = s.out1 ∧ t.out2 = s.out2 := by
  have noPair := filterMap_pairOn_of_no_emission (eff.emits.trans h)
  constructor
  · rw [eff.out1, noPair]
    rfl
  · rw [eff.out2, noPair]
    rfl

/-- `SET_CHANNEL` keeps the latch of the other channel (R97). -/
theorem exec_setChannel_out_of_ne {s t : State} {c d : Channel} {v : Word} (h : exec (.setChannel c.number v) s = .next t)
    (hd : d ≠ c) : t.out d = s.out d := by
  rw [exec_setChannel_number] at h
  obtain rfl := (complete_eq_next _ _).mp h
  rw [State.countCommand_out, State.emit_out, if_neg hd]

/-! ## The rail -/

@[simp] theorem mapOperand_railOn (P : Config.Params) (s : State) (c : Byte) (v : Word) :
    (mapOperand P s c v).railOn = s.railOn := by
  cases h : channelOf c with
  | none => rw [mapOperand_invalid P s v h]
  | some d =>
    obtain rfl := (channelOf_eq_some c d).mp h
    rw [mapOperand_number, State.emit_railOn]

@[simp] theorem setCeilingOperand_railOn (s : State) (c : Byte) (v : Word) : (setCeilingOperand s c v).railOn = s.railOn := by
  cases h : channelOf c with
  | none => rw [setCeilingOperand_invalid s v h]
  | some d => simp [setCeilingOperand, h]

/-- A command other than `SET_POWER` keeps the rail (R35). -/
theorem exec_next_railOn {i : Instr} {s t : State} (hi : ∀ b, i ≠ .setPower b) (h : exec i s = .next t) :
    t.railOn = s.railOn := by
  cases i with
  | setPower b => exact absurd rfl (hi b)
  | setChannel c v | setBrightnessCh c v =>
    obtain rfl := (complete_eq_next _ _).mp h
    exact mapOperand_railOn _ _ _ _
  | setCurrentCh c v =>
    obtain rfl := (complete_eq_next _ _).mp h
    exact setCeilingOperand_railOn _ _ _
  | _ =>
    obtain rfl := (complete_eq_next _ _).mp h
    rfl

/-! ## The obligations -/

/-- Settles O38: the warm part is the entry less the cool part, which is not above it. -/
theorem tunablePartsAddUp : Obligations.TunablePartsAddUp := by
  intro P b t
  obtain ⟨cool, bound⟩ := coolPart_toNat (P.gamma b) t
  change (warmPart (P.gamma b) t).toNat + (coolPart (P.gamma b) t).toNat = (P.gamma b).toNat
  rw [warmPart_toNat]
  omega

/-- Settles O44: three clauses of the effect that every command has. -/
theorem onlyEmittingCommandsEmit : Obligations.OnlyEmittingCommandsEmit := by
  intro i s
  obtain ⟨t, new, ht, eff⟩ := exec_effect i s
  exact ⟨t, new, ht, eff.events, eff.emits⟩

/-- Settles O46: the clauses of the effect, and the rail and the other latch by what the commands emit. -/
theorem commandsWriteOnlyTheirState : Obligations.CommandsWriteOnlyTheirState := by
  intro i s t h
  obtain ⟨t', new, ht', eff⟩ := exec_effect i s
  obtain rfl : t' = t := by simpa [ht'] using h
  refine ⟨eff.cfg, eff.analogMin, eff.pwmMin, eff.current, eff.result, fun hi => exec_next_railOn hi h,
    eff.latches_of_no_emission, fun quiet hi => ?_, eff.refused, eff.input, ?_⟩
  · rw [eff.events, eff.quiet quiet hi, List.append_nil]
  · rintro c v b (rfl | rfl) d hd
    · exact exec_setChannel_out_of_ne h hd
    · rw [exec_setBrightnessCh] at h
      exact exec_setChannel_out_of_ne h hd

end Sys2Proof.Machine

/-! # Encoding examples and the reset table (30_encoding.md section 5, 70_reset_and_hazards.md section 1)

The words of R67 by the round trip and by the decoder's two refusals; the reset values of R161. -/

namespace Sys2Proof.Machine

/-- A word that is a command's encoding is read and written as that command (R60). -/
theorem decode_and_encode_of_encode_eq {i : Instr} {w : CommandWord} (h : encode i = w) : decode w = .ok i ∧ encode i = w :=
  ⟨h ▸ decodeEncodeRoundTrip i, h⟩

/-- A word with a row's opcode that does not match the row is refused (R59, R62). -/
theorem decode_of_not_match {w : CommandWord} {m : Mnemonic} (hop : opField w = m.opcode) (h : (w &&& m.mask) ≠ m.matchBits) :
    decode w = .error (.nonzeroReservedField w) :=
  decode_of_not_mbzClear hop fun clear => h ((and_mask_eq_matchBits_iff w m).mpr ⟨hop, clear⟩)

/-! ## The obligations -/

/-- Settles O1: each word of a command is its encoding, and the round trip reads it back; the refused words have an opcode of no row or a set
must-be-zero bit; channel number 3 names no channel. -/
theorem specExampleWordsDecode : Obligations.SpecExampleWordsDecode := by
  have row {i : Instr} {w : CommandWord} (h : encode i = w) := decode_and_encode_of_encode_eq h
  have noOp (s : State) : exec (.setChannel 3 100) s = .next { s with pos := s.pos + 1 } := by
    obtain ⟨⟨-, noOp⟩, -, -⟩ := otherChannelNumbersAreSilentNoOps s 3 100 0 (by decide) (by decide)
    exact noOp
  refine ⟨row rfl, ⟨decodeEncodeRoundTrip (.setChannel 3 100), rfl, noOp⟩, row rfl, row rfl, row rfl, row rfl, row rfl, row rfl,
    row rfl, row rfl, row rfl, row rfl, row rfl, ?_, ?_, ?_, ?_, ?_⟩
  · exact decode_of_no_row (ne_opcode_of_reserved (by decide))
  · exact decode_of_no_row (ne_opcode_of_reserved (by decide))
  · exact decode_of_not_match (m := .setBrightness) rfl (by decide)
  · exact decode_of_not_match (m := .setCurrent) rfl (by decide)
  · exact decode_of_not_match (m := .setPower) rfl (by decide)

/-- Settles O52: the fields of `State.reset`, of which the four places hold no written value, and the one known table entry (R29). -/
theorem resetState : Obligations.ResetState :=
  ⟨rfl, rfl, rfl, rfl, Config.params.linY_last, rfl, rfl, rfl, rfl, rfl, rfl, rfl⟩

end Sys2Proof.Machine
